-- ==== Sys2Proof/Word.lean ====
section
/-! DEFINITION. The machine's word types: a register, a cell of program memory, an output value. -/

namespace Sys2Proof

/-- A register or the instruction pointer: 64 bits, unsigned (00_scope.md R5, R7, R12). -/
abbrev Word := BitVec 64

/-- One cell of program memory. The spec's cell has CELL_BITS bits, 3 to 64, a parameter (00_scope.md R6);
the model holds its value zero-extended to the widest cell, so that one machine serves every CELL_BITS
(DESIGN CHOICE, notes/assumptions/7.md). -/
abbrev Cell := BitVec 64

/-- One emitted value: 3 bits (10_state.md R32, 44_output.md R105). -/
abbrev OutVal := BitVec 3

end Sys2Proof
end

