-- ==== Sys2Proof/Syntax.lean ====
section
/-! DEFINITION. The instructions (30_encoding.md R62), the registers, the operand kinds and the fault causes. -/

namespace Sys2Proof

/-- The three general registers, `x[0]`, `x[1]`, `x[2]` (10_state.md R20). -/
inductive Reg where
  | a
  | b
  | c
deriving DecidableEq, Repr

/-- The fault causes (60_exceptions.md R111). -/
inductive FaultCause where
  /-- Code 1, the source's DecodeError: the opcode cell is above 7. -/
  | decodeOpcode
  /-- Code 2, the source's DecodeError: a combo operand cell is 7 or above. -/
  | decodeOperand
  /-- Code 3: the operand's index `pc + 1` is not below L. -/
  | fetchOperand
deriving DecidableEq, Repr

/-- How an instruction uses its operand cell (30_encoding.md R63). -/
inductive OperandKind where
  | combo
  | literal
  | ignored
deriving DecidableEq, Repr

/-- The eight instructions, one constructor per row of the opcode table. Each carries the value of its operand cell,
unchecked, as rule R70's `decode(op, v)` gives it. -/
inductive Instr where
  /-- `adv v`, opcode 0 (41_divide.md R91). -/
  | adv (v : Cell)
  /-- `bxl v`, opcode 1 (42_xor_mod.md R95). -/
  | bxl (v : Cell)
  /-- `bst v`, opcode 2 (42_xor_mod.md R96). -/
  | bst (v : Cell)
  /-- `jnz v`, opcode 3 (43_jump.md R100). -/
  | jnz (v : Cell)
  /-- `bxc v`, opcode 4 (42_xor_mod.md R97). -/
  | bxc (v : Cell)
  /-- `out v`, opcode 5 (44_output.md R105). -/
  | out (v : Cell)
  /-- `bdv v`, opcode 6 (41_divide.md R92). -/
  | bdv (v : Cell)
  /-- `cdv v`, opcode 7 (41_divide.md R93). -/
  | cdv (v : Cell)
deriving DecidableEq, Repr

/-- The value of the operand cell. -/
def Instr.operand : Instr → Cell
  | .adv v => v
  | .bxl v => v
  | .bst v => v
  | .jnz v => v
  | .bxc v => v
  | .out v => v
  | .bdv v => v
  | .cdv v => v

/-- The operand kind each opcode fixes (30_encoding.md R63). -/
def Instr.operandKind : Instr → OperandKind
  | .adv _ => .combo
  | .bxl _ => .literal
  | .bst _ => .combo
  | .jnz _ => .literal
  | .bxc _ => .ignored
  | .out _ => .combo
  | .bdv _ => .combo
  | .cdv _ => .combo

/-- The mnemonic of the opcode table (30_encoding.md R62). -/
def Instr.mnemonic : Instr → String
  | .adv _ => "adv"
  | .bxl _ => "bxl"
  | .bst _ => "bst"
  | .jnz _ => "jnz"
  | .bxc _ => "bxc"
  | .out _ => "out"
  | .bdv _ => "bdv"
  | .cdv _ => "cdv"

end Sys2Proof
end

