-- ==== Sys2Proof/Decode.lean ====
section
/-! DEFINITION. Decoding two cells into an instruction, rejecting by name (30_encoding.md R62, R70), and after it
the encoder, the assembler of R73 and the packed words of the opcode table (R71). -/

namespace Sys2Proof

/-- What decoding a pair of cells gives: an instruction, or a named rejection (30_encoding.md R70). -/
inductive DecodeResult where
  | instr (i : Instr)
  | invalid (cause : FaultCause)
deriving DecidableEq, Repr

/-- `decode(op, v)` of 30_encoding.md R70, by the opcode map of R62. The numbers of bxl, bxc, bdv and cdv are list
positions (UNVERIFIED by the source, unsafe: D2, notes/assumptions/10.md). A combo operand is not checked here but
when the instruction executes (R66, R70; notes/assumptions/16.md). -/
def decode (op v : Cell) : DecodeResult :=
  match op.toNat with
  | 0 => .instr (.adv v)
  | 1 => .instr (.bxl v)
  | 2 => .instr (.bst v)
  | 3 => .instr (.jnz v)
  | 4 => .instr (.bxc v)
  | 5 => .instr (.out v)
  | 6 => .instr (.bdv v)
  | 7 => .instr (.cdv v)
  | _ => .invalid .decodeOpcode

/-- The opcode number of an instruction (30_encoding.md R62). -/
def Instr.opcode : Instr → Cell
  | .adv _ => 0
  | .bxl _ => 1
  | .bst _ => 2
  | .jnz _ => 3
  | .bxc _ => 4
  | .out _ => 5
  | .bdv _ => 6
  | .cdv _ => 7

/-- The two cells of an instruction, the opcode first (30_encoding.md R60, 20_memory.md R44). -/
def encode (i : Instr) : Cell × Cell :=
  (i.opcode, i.operand)

/-- The cells of a program, line after line: opcode, then operand (30_encoding.md R73). -/
def assemble : List Instr → List Cell
  | [] => []
  | i :: is => (encode i).1 :: (encode i).2 :: assemble is

/-- The same cells for a machine whose cells have `k` bits (30_encoding.md R61). -/
def encodeFor (k : Nat) (is : List Instr) : List (BitVec k) :=
  (assemble is).map (BitVec.setWidth k)

/-- The assembler notation of one instruction: mnemonic, then the raw operand in decimal (30_encoding.md R73). -/
def Instr.asmLine (i : Instr) : String :=
  i.mnemonic ++ " " ++ toString i.operand.toNat

/-- The packed notation of the opcode table, `w = op * 8 + v`, for cells of 3 bits (30_encoding.md R71). -/
def packWord (i : Instr) : Nat :=
  i.opcode.toNat * 8 + i.operand.toNat

/-- The opcode and operand cells that the low `nbits` bits of a packed word stand for (30_encoding.md R71): bits 2..0
are the operand, what is above them is the opcode. Bits above bit 5, which no 3-bit opcode cell has, so make the
opcode illegal (DESIGN CHOICE, notes/assumptions/19.md). -/
def unpackWord (nbits w : Nat) : Cell × Cell :=
  (BitVec.ofNat 64 (w % 2 ^ nbits / 8), BitVec.ofNat 64 (w % 2 ^ nbits % 8))

/-- The instruction the decoder reads from a word of the opcode table: its two cells, opcode at the lower index,
given to `decode`. -/
def decodeTableWord (nbits w : Nat) : Option Instr :=
  match decode (unpackWord nbits w).1 (unpackWord nbits w).2 with
  | .instr i => some i
  | .invalid _ => none

end Sys2Proof
end

