-- ==== Sys2Proof/Config.lean ====
section
/-! DEFINITION. What an implementation or a program load fixes: the legal cell widths and the bound on the
program's length. The spec leaves no result undefined, so there is no free value here. -/

namespace Sys2Proof

/-- The widths a cell may have: `3 <= CELL_BITS <= 64` (00_scope.md R6). CELL_BITS itself is an argument of every
definition that depends on it, never a number chosen here. -/
abbrev Config.legalCellBits (k : Nat) : Prop := 3 ≤ k ∧ k ≤ 64

/-- The longest program a load accepts: `L <= 2^IP_BITS - 2` (00_scope.md R8). -/
def Config.maxProgLength : Nat := 2 ^ 64 - 2

end Sys2Proof
end

