-- ==== Sys2Proof/Machine/State.lean ====
section
/-! DEFINITION. Everything the spec gives the machine, as plain data (10_state.md), the reasons a step can stop, and
the state after reset. -/

namespace Sys2Proof.Machine

/-- Why a step stops with the host's `fault` outcome: never. It has no constructor. Every fault of the spec is an
entry the spec describes (60_exceptions.md R113): it latches FLT and the machine answers a NEXT state, whose `report`
is `Fault(cause)` (notes/assumptions/1.md). -/
inductive Fault where
deriving DecidableEq, Repr

/-- Why an operation has no meaning. -/
inductive Refusal where
  /-- Raised by an arm of `exec` whose instruction has no meaning yet: none is left. Safe: nothing is claimed. -/
  | notModelled (mnemonic : String)
  /-- Raised by a step before the first program load: PROG and L are unspecified (70_reset_and_hazards.md R132, U5).
  Safe: the model gives no meaning where the spec gives none. -/
  | stepBeforeLoad
  /-- Raised by a step with no reset since power-on or since the last load (10_state.md R35, 70_reset_and_hazards.md
  R131, R132, U5, U6). Safe: the model gives no meaning where the spec gives none. -/
  | stepBeforeReset
  /-- Raised by a load for a CELL_BITS outside 3 to 64 (00_scope.md R6). Safe: there is no such machine. -/
  | cellBitsIllegal
  /-- Raised by a load of more than 2^64 - 2 cells (00_scope.md R8, U14). Safe: the spec refuses it. -/
  | programTooLong
deriving DecidableEq, Repr

/-- The outcome of one step (10_state.md R33). -/
inductive Report where
  /-- `Continue`: an instruction executed and emitted nothing, a taken jump included (90_conflicts.md C4). -/
  | cont
  /-- `Output(v)`: an `out` executed and emitted `v`. -/
  | output (v : OutVal)
  /-- `Halted`: `pc >= L` at the start of the step, nothing was done. -/
  | halted
  /-- `Fault(c)`: the step raised, or repeated, the fault `c`. -/
  | fault (c : FaultCause)
deriving DecidableEq, Repr

/-- Program memory: cell `i` is the `i`-th entry and the length is L (20_memory.md R40, 70_reset_and_hazards.md R131).
The addresses are 0 to L - 1 with none left out, so the list is its own canonical form: equal memories are equal
lists. An index at or past L has no cell (20_memory.md R49; notes/assumptions/8.md). -/
abbrev Memory := List Cell

/-- The whole state. -/
structure State where
  /-- Register A, `x[0]` (10_state.md R20). -/
  a : Word
  /-- Register B, `x[1]` (10_state.md R20). -/
  b : Word
  /-- Register C, `x[2]` (10_state.md R20). -/
  c : Word
  /-- The instruction pointer: the index of the next opcode cell (10_state.md R24). -/
  pc : Word
  /-- The fault latch FLT, 2 bits; `none` is the value 0 (10_state.md R29). `faultCode` of
  Machine/Ops.lean gives the numbers of the others. -/
  flt : Option FaultCause
  /-- OUT, the history of the output port, in emission order (10_state.md R32; notes/assumptions/3.md). -/
  out : List OutVal
  /-- PROG, whose length is L: set by the host's load alone (20_memory.md R40, R41). -/
  prog : Memory
  /-- A program load has happened (70_reset_and_hazards.md R131, R132; notes/assumptions/6.md). -/
  loaded : Bool
  /-- A reset has happened since power-on and since the last load (70_reset_and_hazards.md R131 to R133;
  notes/assumptions/6.md). -/
  resetDone : Bool
  /-- MODEL's own: the outcome that the last step handed to its invoker, `none` when none was taken since the reset
  (10_state.md R33; notes/assumptions/2.md). No step reads it. -/
  report : Option Report
deriving DecidableEq, Repr

/-- The machine right after reset, with nothing loaded yet: pc 0, FLT 0, OUT empty (10_state.md R35). The spec's
reset takes A, B, C from the host; here they are 0 (DESIGN CHOICE, unsafe: notes/assumptions/4.md). No program has
been loaded (notes/assumptions/5.md). -/
def State.reset : State where
  a := 0
  b := 0
  c := 0
  pc := 0
  flt := none
  out := []
  prog := []
  loaded := false
  resetDone := true
  report := none

/-- The canonical form of program memory for cells of `k` bits: at most 2^64 - 2 cells (00_scope.md R8), each a value
of `k` bits (00_scope.md R6). -/
def Memory.wf (k : Nat) (m : Memory) : Bool :=
  decide (m.length ≤ Config.maxProgLength) && m.all (fun v => decide (v.toNat < 2 ^ k))

end Sys2Proof.Machine
end

