-- ==== Sys2Proof/Machine/Ops.lean ====
section
/-! DEFINITION. The named operations over registers, pointer, output port, program memory and fault latch, and the
divide family's quotient. Raising a fault and the reset that alone ends it stand side by side. -/

namespace Sys2Proof.Machine

/-- `x[i]`, the one read of a register (00_scope.md §5, 10_state.md R20). -/
def readReg (s : State) (r : Reg) : Word :=
  match r with
  | .a => s.a
  | .b => s.b
  | .c => s.c

/-- `x[i] <- v`, the one write of a register; all 64 bits are kept (10_state.md R22, R23). -/
def writeReg (r : Reg) (v : Word) (s : State) : State :=
  match r with
  | .a => { s with a := v }
  | .b => { s with b := v }
  | .c => { s with c := v }

/-- `pc <- t` (10_state.md R24). -/
def setPc (t : Word) (s : State) : State :=
  { s with pc := t }

/-- `pc <- pc + 2` (10_state.md R25). It does not wrap in any state a run reaches (R27; notes/assumptions/22.md). -/
def advance (s : State) : State :=
  setPc (s.pc + 2) s

/-- The outcome the step hands to its invoker (10_state.md R33). -/
def setReport (r : Report) (s : State) : State :=
  { s with report := some r }

/-- The end of an instruction that emits nothing: `outcome Continue` (40_step_and_run.md R81). -/
def finish (s : State) : Host.Outcome State Fault Refusal :=
  .next (setReport .cont s)

/-- `emit(v)`: the value joins OUT after all earlier ones and is the step's outcome (44_output.md R105, R106). -/
def emit (v : OutVal) (s : State) : State :=
  { s with out := s.out ++ [v], report := some (.output v) }

/-- What a fault leaves: FLT holds the cause and everything else stands as it did (60_exceptions.md R113). -/
def latch (cause : FaultCause) (s : State) : State :=
  { s with flt := some cause, report := some (.fault cause) }

/-- `raise`, the one fault entry: a next state, with the cause latched (60_exceptions.md R113;
notes/assumptions/1.md, 13.md). -/
def raise (cause : FaultCause) (s : State) : Host.Outcome State Fault Refusal :=
  .next (latch cause s)

/-- `reset(a, b, c)`: there is no return from a fault but this (60_exceptions.md R116). It does not touch PROG
(10_state.md R35, 70_reset_and_hazards.md R130). -/
def hostReset (a b c : Word) (s : State) : State :=
  { s with a := a, b := b, c := c, pc := 0, flt := none, out := [], resetDone := true, report := none }

/-- The number FLT holds for a cause, and carries in `Fault(c)` (10_state.md R29, 60_exceptions.md R111). -/
def faultCode (cause : FaultCause) : BitVec 2 :=
  match cause with
  | .decodeOpcode => 1
  | .decodeOperand => 2
  | .fetchOperand => 3

/-- The two bits of FLT as the host reads them, 0 for no fault (10_state.md R29, R36). -/
def fltCode (flt : Option FaultCause) : BitVec 2 :=
  match flt with
  | none => 0
  | some cause => faultCode cause

/-- Cell `i` of program memory, none at or past L (20_memory.md R40, R49). -/
def Memory.read (m : Memory) (i : Nat) : Option Cell :=
  m[i]?

/-- `MemRead(i, 2)`: the opcode cell and the operand cell after it; defined only when `i + 2 <= L`
(00_scope.md §5, 20_memory.md R43, R44). -/
def Memory.readPair (m : Memory) (i : Nat) : Option (Cell × Cell) :=
  match Memory.read m i, Memory.read m (i + 1) with
  | some op, some v => some (op, v)
  | _, _ => none

/-- The memory with one instruction's two cells at index `i`; cells that were not there before are 0. No step and no
host operation of the spec does this: it serves `State.withFetchWord` (notes/assumptions/20.md). -/
def Memory.placePair (m : Memory) (i : Nat) (pair : Cell × Cell) : Memory :=
  (m ++ List.replicate (i - m.length) 0).take i ++ [pair.1, pair.2] ++ m.drop (i + 2)

/-- The state about to fetch `pair`: the two cells at the pointer, no fault latched, a program loaded and the reset
done. A pointer past every legal program is first put to 0 (notes/assumptions/20.md). -/
def placeAtPc (pair : Cell × Cell) (s : State) : State :=
  let pc : Word := if s.pc.toNat + 2 ≤ Config.maxProgLength then s.pc else 0
  { s with pc := pc, flt := none, prog := Memory.placePair s.prog pc.toNat pair, loaded := true, resetDone := true }

/-- `a div 2^n` of the divide family: a logical right shift, 0 when the shift amount is 64 or more
(41_divide.md R90, R94; the last case is the spec's decision D9, unsafe: notes/assumptions/9.md). -/
def shr64 (a n : Word) : Word :=
  if n.toNat < 64 then a >>> n.toNat else 0

/-- `n mod 8`, the low three bits (00_scope.md §5, 42_xor_mod.md R98). -/
def mod8 (n : Word) : OutVal :=
  n.setWidth 3

/-- A value of three bits as a register holds it: `zext_64` (42_xor_mod.md R96). -/
def zext64 (v : OutVal) : Word :=
  v.setWidth 64

end Sys2Proof.Machine
end

