-- ==== Sys2Proof/Machine/Operands.lean ====
section
/-! DEFINITION. The operand forms: combo, literal and ignored (30_encoding.md R63 to R66). -/

namespace Sys2Proof.Machine

/-- A literal operand: the cell's value as it stands, any value (30_encoding.md R64; D3, notes/assumptions/11.md). -/
def literal (v : Cell) : Word :=
  v

/-- `combo(v)`, read from the registers at the start of the step (00_scope.md R10, 30_encoding.md R66): 0 to 3 are
themselves, 4, 5 and 6 are A, B and C, 7 and above have no value. -/
def combo (s : State) (v : Cell) : Option Word :=
  match v.toNat with
  | 0 | 1 | 2 | 3 => some (literal v)
  | 4 => some (readReg s .a)
  | 5 => some (readReg s .b)
  | 6 => some (readReg s .c)
  | _ => none

/-- The frame of the five combo instructions: resolve the operand first, and raise DecodeOperand with nothing written
when it has no value (30_encoding.md R66, 60_exceptions.md R112, R113). -/
def withCombo (s : State) (v : Cell) (body : Word → Host.Outcome State Fault Refusal) :
    Host.Outcome State Fault Refusal :=
  match combo s v with
  | some n => body n
  | none => raise .decodeOperand s

end Sys2Proof.Machine
end

