-- ==== Sys2Proof/Machine/Divide.lean ====
section
/-! DEFINITION. The divide family: adv, bdv, cdv (41_divide.md). -/

namespace Sys2Proof.Machine

/-- What the family shares: A divided by two to the combo operand, into `dst`; A and the operand are read before the
write (41_divide.md R90, 00_scope.md R10). -/
def divideInto (dst : Reg) (v : Cell) (s : State) : Host.Outcome State Fault Refusal :=
  withCombo s v fun n => finish (advance (writeReg dst (shr64 (readReg s .a) n) s))

/-- `adv v`: A <- A div 2^combo(v) (41_divide.md R91). -/
def execAdv (v : Cell) (s : State) : Host.Outcome State Fault Refusal :=
  divideInto .a v s

/-- `bdv v`: B <- A div 2^combo(v) (41_divide.md R92). -/
def execBdv (v : Cell) (s : State) : Host.Outcome State Fault Refusal :=
  divideInto .b v s

/-- `cdv v`: C <- A div 2^combo(v) (41_divide.md R93). -/
def execCdv (v : Cell) (s : State) : Host.Outcome State Fault Refusal :=
  divideInto .c v s

end Sys2Proof.Machine
end

