-- ==== Sys2Proof/Machine/Flags.lean ====
section
/-! DEFINITION. The machine has no flags (10_state.md R28): its one condition is register A itself. -/

namespace Sys2Proof.Machine

/-- The condition of `jnz`: A is not zero, all 64 bits compared (10_state.md R28, 43_jump.md R100). -/
def aNonzero (s : State) : Bool :=
  readReg s .a != 0

end Sys2Proof.Machine
end

