-- ==== Sys2Proof/Machine/Jump.lean ====
section
/-! DEFINITION. Control transfer: jnz (43_jump.md). -/

namespace Sys2Proof.Machine

/-- `jnz v`: to the absolute index `v` when A is not zero, else on; the target is not checked (43_jump.md R100). -/
def execJnz (v : Cell) (s : State) : Host.Outcome State Fault Refusal :=
  if aNonzero s then finish (setPc (literal v) s) else finish (advance s)

end Sys2Proof.Machine
end

