-- ==== Sys2Proof/Machine/Output.lean ====
section
/-! DEFINITION. Output: out (44_output.md). -/

namespace Sys2Proof.Machine

/-- `out v`: emit combo(v) mod 8 as this step's outcome (44_output.md R105). -/
def execOut (v : Cell) (s : State) : Host.Outcome State Fault Refusal :=
  withCombo s v fun n => .next (advance (emit (mod8 n) s))

end Sys2Proof.Machine
end

