-- ==== Sys2Proof/Machine/XorMod.lean ====
section
/-! DEFINITION. The B-register family: bxl, bst, bxc (42_xor_mod.md). -/

namespace Sys2Proof.Machine

/-- `bxl v`: B <- B xor the literal (42_xor_mod.md R95). -/
def execBxl (v : Cell) (s : State) : Host.Outcome State Fault Refusal :=
  finish (advance (writeReg .b (readReg s .b ^^^ literal v) s))

/-- `bst v`: B <- combo(v) mod 8 (42_xor_mod.md R96). -/
def execBst (v : Cell) (s : State) : Host.Outcome State Fault Refusal :=
  withCombo s v fun n => finish (advance (writeReg .b (zext64 (mod8 n)) s))

/-- `bxc v`: B <- B xor C; the operand cell is not examined (42_xor_mod.md R97, 30_encoding.md R65;
notes/assumptions/14.md). -/
def execBxc (_v : Cell) (s : State) : Host.Outcome State Fault Refusal :=
  finish (advance (writeReg .b (readReg s .b ^^^ readReg s .c) s))

end Sys2Proof.Machine
end

