-- ==== Sys2Proof/Machine/Dispatch.lean ====
section
/-! DEFINITION. The dispatch over the closed set of eight instructions, with no default arm (40_step_and_run.md R85). -/

namespace Sys2Proof.Machine

/-- The meaning of one instruction. -/
def exec (i : Instr) (s : State) : Host.Outcome State Fault Refusal :=
  match i with
  | .adv v => Sys2Proof.Machine.execAdv v s
  | .bxl v => Sys2Proof.Machine.execBxl v s
  | .bst v => Sys2Proof.Machine.execBst v s
  | .jnz v => Sys2Proof.Machine.execJnz v s
  | .bxc v => Sys2Proof.Machine.execBxc v s
  | .out v => Sys2Proof.Machine.execOut v s
  | .bdv v => Sys2Proof.Machine.execBdv v s
  | .cdv v => Sys2Proof.Machine.execCdv v s

end Sys2Proof.Machine
end

