-- ==== Sys2Proof/Machine/Cycle.lean ====
section
/-! DEFINITION. One step as 40_step_and_run.md R80 orders it: latch, end of program, fetch of both cells, decode,
execute. Step.lean's `step` is this definition. -/

namespace Sys2Proof.Machine

/-- Lines 2 and 3 of R80: fetch both cells, raising FetchOperand when the operand cell does not exist
(20_memory.md R43, R47), then decode, raising DecodeOpcode for an opcode above 7 (30_encoding.md R70), then execute.
The pointer's parity is not looked at (10_state.md R26, 20_memory.md R45; notes/assumptions/12.md). -/
def fetchAndExecute (s : State) : Host.Outcome State Fault Refusal :=
  match Memory.readPair s.prog s.pc.toNat with
  | none => raise .fetchOperand s
  | some (op, v) =>
    match decode op v with
    | .invalid cause => raise cause s
    | .instr i => exec i s

/-- Lines 0 and 1 of R80: a latched fault is reported again (R83), and a pointer at or past L is Halted (R82,
20_memory.md R46), each with no change. -/
def checkedStep (s : State) : Host.Outcome State Fault Refusal :=
  match s.flt with
  | some cause => .next (setReport (.fault cause) s)
  | none =>
    if s.prog.length ≤ s.pc.toNat then .next (setReport .halted s) else fetchAndExecute s

/-- One step. It has a meaning only after a load and a reset after it (10_state.md R35, 70_reset_and_hazards.md R131,
R132; notes/assumptions/6.md). -/
def cycle (s : State) : Host.Outcome State Fault Refusal :=
  if s.loaded then
    if s.resetDone then checkedStep s else .refused .stepBeforeReset
  else .refused .stepBeforeLoad

end Sys2Proof.Machine
end

