-- ==== Sys2Proof/Machine/Step.lean ====
section
/-! DEFINITION. The machine's step, and the state whose next fetch is a given word. Both only call definitions of
Machine/Cycle.lean, Machine/Ops.lean and Decode.lean. -/

namespace Sys2Proof.Machine

/-- One step of the machine (40_step_and_run.md R80, R84). -/
def step (s : State) : Host.Outcome State Fault Refusal :=
  cycle s

/-- The state whose next step fetches the two cells of a packed word of the opcode table: it stands for the host's
load of a program (notes/assumptions/5.md, 20.md). -/
def State.withFetchWord (s : State) (nbits w : Nat) : State :=
  placeAtPc (unpackWord nbits w) s

end Sys2Proof.Machine
end

