-- ==== Sys2Proof/Machine/HostInterface.lean ====
section
/-! DEFINITION. The host's other operations (70_reset_and_hazards.md R129): load, read, run, and power-on. `reset` is
`hostReset` of Machine/Ops.lean, `step` is Machine/Step.lean's. -/

namespace Sys2Proof.Machine

/-- `load(cells)` for a machine whose cells have `k` bits (70_reset_and_hazards.md R131): PROG and L become the list
and its length, nothing of it is checked but the bound on L (00_scope.md R8), and a reset must follow. The other
registers stand (DEDUCED: notes/assumptions/21.md). -/
def hostLoad (k : Nat) (cells : List (BitVec k)) (s : State) : Host.Outcome State Fault Refusal :=
  if Config.legalCellBits k then
    if cells.length ≤ Config.maxProgLength then
      .next { s with prog := cells.map (BitVec.setWidth 64), loaded := true, resetDone := false }
    else .refused .programTooLong
  else .refused .cellBitsIllegal

/-- Power-on: every register, FLT and the program are unspecified, that is any values `junk` brings, and no step has a
meaning yet (10_state.md R35, 70_reset_and_hazards.md R132, U5; notes/assumptions/18.md). -/
def powerOn (junk : State) : State :=
  { junk with loaded := false, resetDone := false }

/-- What the host's `read` returns (10_state.md R36). -/
structure ReadOut where
  a : Word
  b : Word
  c : Word
  pc : Word
  flt : BitVec 2
deriving DecidableEq, Repr

/-- `read`: A, B, C, pc and the two bits of FLT (10_state.md R36). -/
def hostRead (s : State) : ReadOut where
  a := s.a
  b := s.b
  c := s.c
  pc := s.pc
  flt := fltCode s.flt

/-- The host's `step` invoked `n` times, ending at the first that has no meaning (70_reset_and_hazards.md R129, R133). -/
def steps : Nat → State → Host.Outcome State Fault Refusal
  | 0, s => .next s
  | n + 1, s =>
    match step s with
    | .next t => steps n t
    | .fault why => .fault why
    | .refused why => .refused why

/-- What a run returns (40_step_and_run.md R86, R88). -/
inductive RunResult where
  /-- `Done(OUT)`: a step reported Halted. -/
  | done (out : List OutVal)
  /-- `Aborted(c)`: a step reported a fault; no output sequence is delivered (R88). -/
  | aborted (cause : FaultCause)
  /-- The model's bound on steps was reached: no result (R87, U7; notes/assumptions/17.md). -/
  | outOfFuel
  /-- A step had no meaning (U5, U6). -/
  | refused (why : Refusal)
deriving DecidableEq, Repr

/-- `run` under fuel: steps until Halted or a fault, and the state the CPU is left in (40_step_and_run.md R86 to R89).
OUT is emptied by reset, not here (70_reset_and_hazards.md R136; DEDUCED, unsafe: notes/assumptions/3.md). -/
def hostRun : Nat → State → RunResult × State
  | 0, s => (.outOfFuel, s)
  | fuel + 1, s =>
    match step s with
    | .next t =>
      match t.report with
      | some .halted => (.done t.out, t)
      | some (.fault cause) => (.aborted cause, t)
      | some .cont => hostRun fuel t
      | some (.output _) => hostRun fuel t
      | none => hostRun fuel t
    | .fault why => nomatch why
    | .refused why => (.refused why, s)

end Sys2Proof.Machine
end

