-- ==== Sys2Proof/WellFormed.lean ====
section
/-! DEFINITION. Which instructions are legal encodings (30_encoding.md R61, R67) for a given CELL_BITS. -/

namespace Sys2Proof

/-- The operand is a value of a cell of `k` bits (30_encoding.md R61). -/
def Instr.operandFits (k : Nat) (i : Instr) : Bool :=
  decide (i.operand.toNat < 2 ^ k)

/-- The operand of a combo instruction is 0 to 6; literal and ignored operands are never checked
(30_encoding.md R63 to R67). -/
def Instr.comboLegal (i : Instr) : Bool :=
  match i.operandKind with
  | .combo => decide (i.operand.toNat ≤ 6)
  | .literal => true
  | .ignored => true

/-- A legal instruction of a machine with cells of `k` bits. -/
def Instr.wellFormed (k : Nat) (i : Instr) : Bool :=
  i.operandFits k && i.comboLegal

end Sys2Proof
end

