-- ==== Sys2Proof/Safety.lean ====
section
/-! DEFINITION. The terms the claims use: when a step has a meaning, what a step fetches, which registers an
instruction uses, the invariant of the machine, and the programs that never fault. -/

namespace Sys2Proof

/-- The register an instruction writes (10_state.md R21). -/
def Instr.writes : Instr → Option Reg
  | .adv _ => some .a
  | .bxl _ => some .b
  | .bst _ => some .b
  | .jnz _ => none
  | .bxc _ => some .b
  | .out _ => none
  | .bdv _ => some .b
  | .cdv _ => some .c

/-- The register a combo operand selects (10_state.md R20, 30_encoding.md R66). -/
def comboReg (v : Cell) : Option Reg :=
  if v = 4 then some .a else if v = 5 then some .b else if v = 6 then some .c else none

/-- The registers an instruction reads, always or through its combo operand (10_state.md R21). -/
def Instr.reads : Instr → List Reg
  | .adv v => .a :: (comboReg v).toList
  | .bxl _ => [.b]
  | .bst v => (comboReg v).toList
  | .jnz _ => [.a]
  | .bxc _ => [.b, .c]
  | .out v => (comboReg v).toList
  | .bdv v => .a :: (comboReg v).toList
  | .cdv v => .a :: (comboReg v).toList

end Sys2Proof

namespace Sys2Proof.Machine

/-- A step has a meaning: a program has been loaded and a reset done after it (70_reset_and_hazards.md R133). -/
abbrev State.Running (s : State) : Prop :=
  s.loaded = true ∧ s.resetDone = true

/-- A step has a meaning and no fault is latched. -/
abbrev State.Ready (s : State) : Prop :=
  s.Running ∧ s.flt = none

/-- The opcode cell at the pointer is `op` and the operand cell after it is `v` (20_memory.md R43). -/
abbrev State.AtPair (s : State) (op v : Cell) : Prop :=
  s.prog[s.pc.toNat]? = some op ∧ s.prog[s.pc.toNat + 1]? = some v

/-- The opcodes whose operand goes through the combo decoder (30_encoding.md R63). -/
abbrev comboOpcode (op : Cell) : Prop :=
  op = 0 ∨ op = 2 ∨ op = 5 ∨ op = 6 ∨ op = 7

/-- The state a fault leaves, written out (60_exceptions.md R113). -/
abbrev State.faulted (s : State) (cause : FaultCause) : State :=
  { s with flt := some cause, report := some (.fault cause) }

/-- The two states hold the same architectural tuple and the same program (10_state.md R34); OUT and the last report
may differ. -/
def State.SameMachine (s t : State) : Prop :=
  s.a = t.a ∧ s.b = t.b ∧ s.c = t.c ∧ s.pc = t.pc ∧ s.flt = t.flt ∧ s.prog = t.prog ∧
    s.loaded = t.loaded ∧ s.resetDone = t.resetDone

/-- A latched cause is the one the cells at the pointer show: the host finds the offending opcode or operand there
(60_exceptions.md R111). -/
structure State.FaultDiagnosed (s : State) : Prop where
  opcode : s.flt = some .decodeOpcode → ∃ op v, s.AtPair op v ∧ 7 < op.toNat
  operand : s.flt = some .decodeOperand → ∃ op v, s.AtPair op v ∧ comboOpcode op ∧ 7 ≤ v.toNat
  fetch : s.flt = some .fetchOperand → s.pc.toNat + 1 = s.prog.length

/-- The last report tells the truth about the state it left (10_state.md R33, 40_step_and_run.md R82, R83). -/
structure State.ReportTrue (s : State) : Prop where
  fault : ∀ cause, s.report = some (.fault cause) ↔ s.flt = some cause
  halted : s.report = some .halted → s.prog.length ≤ s.pc.toNat
  output : ∀ v, s.report = some (.output v) → s.out.getLast? = some v

/-- The invariant of a machine with cells of `k` bits: the program memory keeps its form, the pointer is at most L or
a cell's value (10_state.md R25, R27, 20_memory.md R49), the latch names what is at the pointer, and the last report
is true. -/
structure State.Inv (k : Nat) (s : State) : Prop where
  memory : Memory.wf k s.prog = true
  pointer : s.pc.toNat ≤ s.prog.length ∨ s.pc.toNat < 2 ^ k
  diagnosed : s.FaultDiagnosed
  reported : s.ReportTrue

/-- A program a host that wants Halted may supply: every instruction legal, every jump target even
(70_reset_and_hazards.md R134, R138). -/
def IntendedProgram (k : Nat) (is : List Instr) : Prop :=
  (∀ i ∈ is, i.wellFormed k = true) ∧ ∀ v, Instr.jnz v ∈ is → v.toNat % 2 = 0

end Sys2Proof.Machine
end

