-- ==== Sys2Proof/Certificates/Slice0/Obligations.lean ====
section
/-! DEFINITION. The statements about the machine, each with the rule of the spec it formalises. -/

open Sys2Proof Sys2Proof.Machine

/-- The decoder on cells the spec writes out: one pair for each opcode, and an opcode above 7. The numbers 1, 4, 6
and 7 are the spec's own decision D2 (notes/assumptions/10.md). -/
def Obligations.DecodeReadsSpecCells : Prop :=
  decode 0 3 = .instr (.adv 3) ∧ decode 1 7 = .instr (.bxl 7) ∧ decode 2 6 = .instr (.bst 6) ∧
    decode 3 0 = .instr (.jnz 0) ∧ decode 4 7 = .instr (.bxc 7) ∧ decode 5 4 = .instr (.out 4) ∧
    decode 6 5 = .instr (.bdv 5) ∧ decode 7 6 = .instr (.cdv 6) ∧ decode 8 0 = .invalid .decodeOpcode

/-- Decode and encode are inverse on the whole of the cell pairs, and what is left over is exactly the opcodes
above 7, refused by name. The opcode numbers rest on the spec's decision D2 (notes/assumptions/10.md); that a
combo operand is not checked here is R70's reading (notes/assumptions/16.md). -/
def Obligations.DecodeAcceptsExactlyEncodings : Prop :=
  (∀ (op v : Cell) (i : Instr), decode op v = .instr i ↔ encode i = (op, v)) ∧
    ∀ (op v : Cell) (cause : FaultCause),
      decode op v = .invalid cause ↔ cause = .decodeOpcode ∧ 7 < op.toNat

/-- Encode, the assembler, the load at every CELL_BITS (log 7) and the decoder agree on whole programs: no bit of
any cell is dropped and every line is found at index 2n. The list layout of memory is the model's
(notes/assumptions/8.md); that an illegal combo operand decodes and faults only when it executes is its reading of
R70 (notes/assumptions/16.md). -/
def Obligations.LoadedAssemblyDecodesBack : Prop :=
  ∀ (k : Nat) (is : List Instr) (s : State), Config.legalCellBits k →
    (∀ i ∈ is, i.operandFits k = true) → 2 * is.length ≤ Config.maxProgLength →
    ∃ t, hostLoad k (encodeFor k is) s = .next t ∧ t.prog.length = 2 * is.length ∧
      ∀ (n : Nat) (h : n < is.length), ∃ op v,
        Memory.readPair t.prog (2 * n) = some (op, v) ∧ decode op v = .instr is[n]

/-- The packed notation `op * 8 + v` of R71, the spec's own (D19). That words of 64 and above are refused is the
model's choice (notes/assumptions/19.md). That the five words adv 7, bst 7, out 7, bdv 7 and cdv 7 decode to
instructions, which fault when they execute, is the model's reading of R70, which also allows refusing them at
decode time (DEDUCED, notes/assumptions/16.md). -/
def Obligations.PackedWordsDecode : Prop :=
  (∀ i : Instr, i.operandFits 3 = true → packWord i < 64 ∧ decodeTableWord 8 (packWord i) = some i) ∧
    (∀ w : Nat, w < 64 → ∃ i, decodeTableWord 8 w = some i ∧ packWord i = w) ∧
    ∀ w : Nat, 64 ≤ w → w < 256 → decodeTableWord 8 w = none

/-- The step adds nothing around `exec`: the instruction itself moves the pointer. No premise on the pointer's
parity: an odd pointer executes what it finds (the spec's decision D8, notes/assumptions/12.md). The premise that
a load and a reset have happened is notes/assumptions/6.md. -/
def Obligations.StepRunsDecodedInstruction : Prop :=
  ∀ (s : State) (op v : Cell) (i : Instr), s.Ready → s.AtPair op v → decode op v = .instr i →
    step s = exec i s

/-- The stand-in for the host's load (notes/assumptions/5.md, 20.md): what it places is what the next step runs. -/
def Obligations.FetchWordRunsAsPlaced : Prop :=
  ∀ (s : State) (nbits w : Nat) (i : Instr), decodeTableWord nbits w = some i →
    step (s.withFetchWord nbits w) = exec i (s.withFetchWord nbits w) ∧
      (∀ r, readReg (s.withFetchWord nbits w) r = readReg s r) ∧
      (s.withFetchWord nbits w).out = s.out ∧ (s.withFetchWord nbits w).report = s.report

/-- Each clause says the whole next state. The clauses exclude each other by their premises. The order, the latch
and the causes are the spec's own decisions D7, D10, D11, D12, D22 (notes/assumptions/13.md); the opcodes 6 and 7
among `comboOpcode` are its decision D2 (notes/assumptions/10.md). -/
def Obligations.StepPriority : Prop :=
  ∀ s : State, s.Running →
    (∀ cause, s.flt = some cause → step s = .next { s with report := some (.fault cause) }) ∧
    (s.flt = none → s.prog.length ≤ s.pc.toNat → step s = .next { s with report := some .halted }) ∧
    (s.flt = none → s.pc.toNat + 1 = s.prog.length → step s = .next (s.faulted .fetchOperand)) ∧
    (∀ op v, s.flt = none → s.AtPair op v → 7 < op.toNat → step s = .next (s.faulted .decodeOpcode)) ∧
    ∀ op v, s.flt = none → s.AtPair op v → comboOpcode op → 7 ≤ v.toNat →
      step s = .next (s.faulted .decodeOperand)

/-- Rule R46: at or past the end the step reports Halted and does nothing else, which is no fault; and only there. -/
def Obligations.HaltedExactlyPastEnd : Prop :=
  ∀ s : State, s.Ready →
    (s.prog.length ≤ s.pc.toNat ↔ step s = .next { s with report := some .halted })

/-- After a fault every run of steps leaves the machine as it was, reporting the same cause. The sticky latch is
the spec's own decision D11 (notes/assumptions/13.md). -/
def Obligations.LatchedFaultRepeatsForever : Prop :=
  ∀ (s : State) (cause : FaultCause) (n : Nat), s.Running → s.flt = some cause →
    steps (n + 1) s = .next { s with report := some (.fault cause) }

/-- Where the spec gives a step no meaning (U5, U6), the model refuses it. The two bits that record the life cycle
are the model's (notes/assumptions/6.md), as is power-on with arbitrary contents (notes/assumptions/18.md). -/
def Obligations.StepNeedsLoadAndReset : Prop :=
  (∀ s : State, s.loaded = false → step s = .refused .stepBeforeLoad) ∧
    (∀ s : State, s.loaded = true → s.resetDone = false → step s = .refused .stepBeforeReset) ∧
    (∀ junk : State, step (powerOn junk) = .refused .stepBeforeLoad) ∧
    ∀ (k : Nat) (cells : List (BitVec k)) (s t : State), hostLoad k cells s = .next t →
      step t = .refused .stepBeforeReset

/-- No cell, no register value and no pointer makes the machine stop without a next state; the one premise is the
life cycle (notes/assumptions/6.md). A fault of the spec is a next state (notes/assumptions/1.md). -/
def Obligations.StepAnswersExactlyWhenRunning : Prop :=
  ∀ s : State, (∃ t, step s = .next t) ↔ s.Running

/-- Rule R91: encoding, quotient (by numbers, so every shift amount is covered), frame, and the two faults. The 0
for amounts of 64 or more and FetchOperand are its decisions D9 and D7 (notes/assumptions/9.md, 13.md). That an
illegal operand decodes is the model's reading of R70 (DEDUCED, notes/assumptions/16.md). -/
def Obligations.AdvRule : Prop :=
  (∀ v : Cell, decode 0 v = .instr (.adv v)) ∧
    (∀ (s : State) (v : Cell) (n : Word), combo s v = some n →
      exec (.adv v) s = .next { s with
        a := BitVec.ofNat 64 (s.a.toNat / 2 ^ n.toNat), pc := s.pc + 2, report := some .cont }) ∧
    (∀ (s : State) (v : Cell), 7 ≤ v.toNat → exec (.adv v) s = .next (s.faulted .decodeOperand)) ∧
    ∀ s : State, s.Ready → s.prog[s.pc.toNat]? = some 0 → s.prog.length ≤ s.pc.toNat + 1 →
      step s = .next (s.faulted .fetchOperand)

/-- Rule R92: encoding, quotient (by numbers, so every shift amount is covered), frame, and the two faults. The
opcode number 6 is the spec's own inference from the list order (R62, D2: notes/assumptions/10.md, UNVERIFIED and
unsafe). The 0 for amounts of 64 or more and FetchOperand are its decisions D9 and D7 (notes/assumptions/9.md,
13.md). That an illegal operand decodes is the model's reading of R70 (DEDUCED, notes/assumptions/16.md). -/
def Obligations.BdvRule : Prop :=
  (∀ v : Cell, decode 6 v = .instr (.bdv v)) ∧
    (∀ (s : State) (v : Cell) (n : Word), combo s v = some n →
      exec (.bdv v) s = .next { s with
        b := BitVec.ofNat 64 (s.a.toNat / 2 ^ n.toNat), pc := s.pc + 2, report := some .cont }) ∧
    (∀ (s : State) (v : Cell), 7 ≤ v.toNat → exec (.bdv v) s = .next (s.faulted .decodeOperand)) ∧
    ∀ s : State, s.Ready → s.prog[s.pc.toNat]? = some 6 → s.prog.length ≤ s.pc.toNat + 1 →
      step s = .next (s.faulted .fetchOperand)

/-- Rule R93: encoding, quotient (by numbers, so every shift amount is covered), frame, and the two faults. The
opcode number 7 is the spec's own inference from the list order (R62, D2: notes/assumptions/10.md, UNVERIFIED and
unsafe). The 0 for amounts of 64 or more and FetchOperand are its decisions D9 and D7 (notes/assumptions/9.md,
13.md). That an illegal operand decodes is the model's reading of R70 (DEDUCED, notes/assumptions/16.md). -/
def Obligations.CdvRule : Prop :=
  (∀ v : Cell, decode 7 v = .instr (.cdv v)) ∧
    (∀ (s : State) (v : Cell) (n : Word), combo s v = some n →
      exec (.cdv v) s = .next { s with
        c := BitVec.ofNat 64 (s.a.toNat / 2 ^ n.toNat), pc := s.pc + 2, report := some .cont }) ∧
    (∀ (s : State) (v : Cell), 7 ≤ v.toNat → exec (.cdv v) s = .next (s.faulted .decodeOperand)) ∧
    ∀ s : State, s.Ready → s.prog[s.pc.toNat]? = some 7 → s.prog.length ≤ s.pc.toNat + 1 →
      step s = .next (s.faulted .fetchOperand)

/-- Rule R95: encoding, result, frame, no fault of its own, FetchOperand from the step. The opcode number 1 is the
spec's own inference from the list order (R62, D2: notes/assumptions/10.md, UNVERIFIED and unsafe); the unchecked
literal and FetchOperand are its decisions D3 and D7 (notes/assumptions/11.md, 13.md). -/
def Obligations.BxlRule : Prop :=
  (∀ v : Cell, decode 1 v = .instr (.bxl v)) ∧
    (∀ (s : State) (v : Cell),
      exec (.bxl v) s = .next { s with b := s.b ^^^ v, pc := s.pc + 2, report := some .cont }) ∧
    ∀ s : State, s.Ready → s.prog[s.pc.toNat]? = some 1 → s.prog.length ≤ s.pc.toNat + 1 →
      step s = .next (s.faulted .fetchOperand)

/-- Rule R96: encoding, result (bits 63..3 become zero), frame, and the two faults. FetchOperand is the spec's
decision D7 (notes/assumptions/13.md). That an illegal operand decodes is the model's reading of R70 (DEDUCED,
notes/assumptions/16.md). -/
def Obligations.BstRule : Prop :=
  (∀ v : Cell, decode 2 v = .instr (.bst v)) ∧
    (∀ (s : State) (v : Cell) (n : Word), combo s v = some n →
      exec (.bst v) s = .next { s with
        b := BitVec.ofNat 64 (n.toNat % 8), pc := s.pc + 2, report := some .cont }) ∧
    (∀ (s : State) (v : Cell), 7 ≤ v.toNat → exec (.bst v) s = .next (s.faulted .decodeOperand)) ∧
    ∀ s : State, s.Ready → s.prog[s.pc.toNat]? = some 2 → s.prog.length ≤ s.pc.toNat + 1 →
      step s = .next (s.faulted .fetchOperand)

/-- Rule R97: encoding, result, frame, the operand ignored, FetchOperand from the step. The opcode number 4 is the
spec's own inference from the list order (R62, D2: notes/assumptions/10.md, UNVERIFIED and unsafe); the ignored
operand and FetchOperand are its decisions D14 and D7 (notes/assumptions/13.md, 14.md). -/
def Obligations.BxcRule : Prop :=
  (∀ v : Cell, decode 4 v = .instr (.bxc v)) ∧
    (∀ (s : State) (v : Cell),
      exec (.bxc v) s = .next { s with b := s.b ^^^ s.c, pc := s.pc + 2, report := some .cont }) ∧
    ∀ s : State, s.Ready → s.prog[s.pc.toNat]? = some 4 → s.prog.length ≤ s.pc.toNat + 1 →
      step s = .next (s.faulted .fetchOperand)

/-- Rule R100 whole: encoding, both branches, frame, an unchecked target, FetchOperand from the step. Behind the
last two stand the spec's decisions D3 and D7 (notes/assumptions/11.md, 13.md). -/
def Obligations.JnzRule : Prop :=
  (∀ v : Cell, decode 3 v = .instr (.jnz v)) ∧
    (∀ (s : State) (v : Cell), s.a ≠ 0 →
      exec (.jnz v) s = .next { s with pc := v, report := some .cont }) ∧
    (∀ (s : State) (v : Cell), s.a = 0 →
      exec (.jnz v) s = .next { s with pc := s.pc + 2, report := some .cont }) ∧
    ∀ s : State, s.Ready → s.prog[s.pc.toNat]? = some 3 → s.prog.length ≤ s.pc.toNat + 1 →
      step s = .next (s.faulted .fetchOperand)

/-- Rule R105: encoding, the emitted value, frame, and the two faults, raised before anything is emitted.
FetchOperand is the spec's decision D7 (notes/assumptions/13.md). That an illegal operand decodes is the model's
reading of R70 (DEDUCED, notes/assumptions/16.md). -/
def Obligations.OutRule : Prop :=
  (∀ v : Cell, decode 5 v = .instr (.out v)) ∧
    (∀ (s : State) (v : Cell) (n : Word), combo s v = some n →
      exec (.out v) s = .next { s with
        out := s.out ++ [BitVec.ofNat 3 (n.toNat % 8)], pc := s.pc + 2,
        report := some (.output (BitVec.ofNat 3 (n.toNat % 8))) }) ∧
    (∀ (s : State) (v : Cell), 7 ≤ v.toNat → exec (.out v) s = .next (s.faulted .decodeOperand)) ∧
    ∀ s : State, s.Ready → s.prog[s.pc.toNat]? = some 5 → s.prog.length ≤ s.pc.toNat + 1 →
      step s = .next (s.faulted .fetchOperand)

/-- The decoder of R66, with its purity. Operands above 7 are treated as 7 by the spec's decision D22
(notes/assumptions/13.md). -/
def Obligations.ComboDecoderValues : Prop :=
  (∀ (s : State) (v : Cell), v.toNat ≤ 3 → combo s v = some v) ∧
    (∀ s : State, combo s 4 = some s.a ∧ combo s 5 = some s.b ∧ combo s 6 = some s.c) ∧
    (∀ (s : State) (v : Cell), 7 ≤ v.toNat → combo s v = none) ∧
    ∀ (s t : State) (v : Cell), (∀ r, readReg s r = readReg t r) → combo s v = combo t v

/-- The four instructions whose source and destination are one register, as R10 lists them. -/
def Obligations.SameRegisterReadsOldValue : Prop :=
  ∀ s : State,
    exec (.adv 4) s = .next { s with a := 0, pc := s.pc + 2, report := some .cont } ∧
    exec (.bdv 5) s = .next { s with
      b := BitVec.ofNat 64 (s.a.toNat / 2 ^ s.b.toNat), pc := s.pc + 2, report := some .cont } ∧
    exec (.cdv 6) s = .next { s with
      c := BitVec.ofNat 64 (s.a.toNat / 2 ^ s.c.toNat), pc := s.pc + 2, report := some .cont } ∧
    exec (.bst 5) s = .next { s with
      b := BitVec.ofNat 64 (s.b.toNat % 8), pc := s.pc + 2, report := some .cont }

/-- Never the amount modulo 64. The value is the spec's own decision D9, with the optional parameter SHIFT_GE_64
at its default (notes/assumptions/9.md). -/
def Obligations.ShiftOf64OrMoreGivesZero : Prop :=
  ∀ (s : State) (v : Cell) (n : Word), combo s v = some n → 64 ≤ n.toNat →
    exec (.adv v) s = .next { s with a := 0, pc := s.pc + 2, report := some .cont } ∧
    exec (.bdv v) s = .next { s with b := 0, pc := s.pc + 2, report := some .cont } ∧
    exec (.cdv v) s = .next { s with c := 0, pc := s.pc + 2, report := some .cont }

/-- R90: the quotient always fits, q <= A. -/
def Obligations.QuotientNeverExceedsDividend : Prop :=
  ∀ (s : State) (v : Cell), v.toNat ≤ 6 →
    (∃ t, exec (.adv v) s = .next t ∧ t.a.toNat ≤ s.a.toNat) ∧
    (∃ t, exec (.bdv v) s = .next t ∧ t.b.toNat ≤ s.a.toNat) ∧
    ∃ t, exec (.cdv v) s = .next t ∧ t.c.toNat ≤ s.a.toNat

/-- R95 and R97: applying the same exclusive-or twice restores B. -/
def Obligations.XorTwiceRestoresB : Prop :=
  ∀ (s : State) (v w : Cell),
    (∃ t u, exec (.bxl v) s = .next t ∧ exec (.bxl v) t = .next u ∧ ∀ r, readReg u r = readReg s r) ∧
    ∃ t u, exec (.bxc v) s = .next t ∧ exec (.bxc w) t = .next u ∧ ∀ r, readReg u r = readReg s r

/-- Rule R21 as two properties: the frame of the registers, and that nothing outside the read column influences
the result. `Instr.writes` and `Instr.reads` of Sys2Proof/Safety.lean are the table. -/
def Obligations.RegisterUseTable : Prop :=
  (∀ (i : Instr) (s t : State) (r : Reg), exec i s = .next t → i.writes ≠ some r →
      readReg t r = readReg s r) ∧
    ∀ (i : Instr) (s₁ s₂ t₁ t₂ : State), i.comboLegal = true →
      (∀ r ∈ i.reads, readReg s₁ r = readReg s₂ r) → exec i s₁ = .next t₁ → exec i s₂ = .next t₂ →
      (∀ r, i.writes = some r → readReg t₁ r = readReg t₂ r) ∧ t₁.report = t₂.report ∧
        (s₁.pc = s₂.pc → t₁.pc = t₂.pc)

/-- Rule R81 whole. -/
def Obligations.OnlyOutEmits : Prop :=
  ∀ (i : Instr) (s : State), i.comboLegal = true → ∃ t, exec i s = .next t ∧
    ((∃ v w, i = .out v ∧ t.report = some (.output w) ∧ t.out = s.out ++ [w]) ∨
      ((∀ v, i ≠ .out v) ∧ t.report = some .cont ∧ t.out = s.out))

/-- The columns of R112 for an instruction that has been fetched; the causes' numbers are the spec's decision D10. -/
def Obligations.FaultsByInstruction : Prop :=
  ∀ (i : Instr) (s : State), s.flt = none →
    ∃ t, exec i s = .next t ∧ t.flt = if i.comboLegal then none else some .decodeOperand

/-- Fault entry as R113 describes it, for every way a step can fault. That nothing else changes is the spec's
decision D11 (notes/assumptions/13.md). -/
def Obligations.FaultChangesOnlyTheLatch : Prop :=
  ∀ (s t : State) (cause : FaultCause), s.flt = none → step s = .next t → t.flt = some cause →
    t = s.faulted cause

/-- The table of R25 for every step that fetches. The row for a fault is the spec's decision D11
(notes/assumptions/13.md). -/
def Obligations.PcUpdateTable : Prop :=
  ∀ (s : State) (op v : Cell), s.Ready → s.AtPair op v → ∃ t, step s = .next t ∧
    (t.flt = none → t.pc = if op = 3 ∧ s.a ≠ 0 then v else s.pc + 2) ∧ (t.flt ≠ none → t.pc = s.pc)

/-- The inference R27 draws from the bound on L, the spec's decision D6 (notes/assumptions/15.md, 22.md). -/
def Obligations.SequentialPcNeverWraps : Prop :=
  ∀ (s : State) (op v : Cell), s.prog.length ≤ Config.maxProgLength → s.AtPair op v →
    (s.pc + 2).toNat = s.pc.toNat + 2 ∧ (s.pc + 2).toNat ≤ s.prog.length

/-- Rule R41 for each operation the machine has. `Memory.read` is the model's read of one cell; L is the list's
length. -/
def Obligations.ProgramNeverChanges : Prop :=
  (∀ (s t : State) (i : Nat), step s = .next t →
      Memory.read t.prog i = Memory.read s.prog i ∧ t.prog.length = s.prog.length) ∧
    (∀ (fuel : Nat) (s : State), (hostRun fuel s).2.prog = s.prog) ∧
    (∀ (a b c : Word) (s : State), (hostReset a b c s).prog = s.prog) ∧
    ∀ (k : Nat) (cells : List (BitVec k)) (s t : State), hostLoad k cells s = .next t →
      t.prog = cells.map (BitVec.setWidth 64)

/-- R6: with cells of 3 bits the fault of cause 1 cannot occur. CELL_BITS is a parameter by the spec's decision D4
(notes/assumptions/7.md). -/
def Obligations.ThreeBitCellsNeverFaultOnOpcode : Prop :=
  ∀ s t : State, Memory.wf 3 s.prog = true → step s = .next t → t.flt = some .decodeOpcode →
    s.flt = some .decodeOpcode

/-- R34: given the program and the tuple (A, B, C, pc, FLT), the next step is a function; nothing else is
observable. The life-cycle bits are notes/assumptions/6.md. -/
def Obligations.StepDependsOnlyOnTuple : Prop :=
  ∀ s₁ s₂ t₁ : State, s₁.SameMachine s₂ → step s₁ = .next t₁ →
    ∃ t₂, step s₂ = .next t₂ ∧ t₁.SameMachine t₂ ∧ t₁.report = t₂.report ∧
      ∃ emitted, t₁.out = s₁.out ++ emitted ∧ t₂.out = s₂.out ++ emitted

/-- The invariant `State.Inv` of Sys2Proof/Safety.lean, from every state that has it, not only from runs. It rests
on the spec's decisions D4, D6, D7, D10, D11 (notes/assumptions/7.md, 13.md, 15.md) and on the model's report
field (notes/assumptions/2.md); the opcodes 6 and 7 among `comboOpcode` are the spec's decision D2
(notes/assumptions/10.md). -/
def Obligations.InvariantKeptByStep : Prop :=
  ∀ (k : Nat) (s t : State), s.Inv k → step s = .next t → t.Inv k

/-- The base of the invariant. That nothing is loaded is the model's choice (notes/assumptions/5.md). -/
def Obligations.InvariantAtReset : Prop :=
  ∀ k : Nat, State.reset.Inv k

/-- The host's boot sequence (R133) leads into the invariant from any state at all, power-on included. -/
def Obligations.LoadThenResetEstablishesInvariant : Prop :=
  ∀ (k : Nat) (cells : List (BitVec k)) (s t : State) (a b c : Word), hostLoad k cells s = .next t →
    (hostReset a b c t).Inv k ∧ (hostReset a b c t).Ready

/-- The table of R35, for a reset in any state; what it sets beyond A, B, C and pc is the spec's decision D16. The
bits and the report of the model's own are not stated (notes/assumptions/2.md, 6.md). -/
def Obligations.ResetEffect : Prop :=
  (∀ (a b c : Word) (s : State),
      hostRead (hostReset a b c s) = ⟨a, b, c, 0, 0⟩ ∧ (hostReset a b c s).out = [] ∧
        (hostReset a b c s).prog = s.prog) ∧
    State.reset.pc = 0 ∧ State.reset.flt = none ∧ State.reset.out = []

/-- R131 with the bounds of R6 and R8. That registers, pointer, latch and OUT stand through a load is the model's
reading (notes/assumptions/21.md); the refusals are notes/assumptions/7.md and 15.md. -/
def Obligations.LoadEffect : Prop :=
  ∀ (k : Nat) (cells : List (BitVec k)) (s : State),
    (Config.legalCellBits k → cells.length ≤ Config.maxProgLength →
      ∃ t, hostLoad k cells s = .next t ∧ t.prog.length = cells.length ∧
        (∀ (i : Nat) (h : i < cells.length),
          ∃ v, Memory.read t.prog i = some v ∧ v.toNat = cells[i].toNat) ∧
        hostRead t = hostRead s ∧ t.out = s.out) ∧
    (Config.legalCellBits k → Config.maxProgLength < cells.length →
      hostLoad k cells s = .refused .programTooLong) ∧
    (¬ Config.legalCellBits k → hostLoad k cells s = .refused .cellBitsIllegal)

/-- The `read` operation and the numbers of the latch, the spec's decision D10. -/
def Obligations.FaultLatchCodes : Prop :=
  ∀ s : State,
    ((hostRead s).a = s.a ∧ (hostRead s).b = s.b ∧ (hostRead s).c = s.c ∧ (hostRead s).pc = s.pc) ∧
    (s.flt = none → (hostRead s).flt = 0) ∧ (s.flt = some .decodeOpcode → (hostRead s).flt = 1) ∧
    (s.flt = some .decodeOperand → (hostRead s).flt = 2) ∧
    (s.flt = some .fetchOperand → (hostRead s).flt = 3)

/-- R136: nothing leaks from one run to the next through a reset. -/
def Obligations.ResetErasesHistory : Prop :=
  ∀ (s₁ s₂ : State) (a b c : Word) (fuel : Nat), s₁.prog = s₂.prog → s₁.loaded = s₂.loaded →
    hostRun fuel (hostReset a b c s₁) = hostRun fuel (hostReset a b c s₂)

/-- R106 over whole runs. That `run` does not itself empty OUT is the model's reading of R136
(notes/assumptions/3.md). -/
def Obligations.OutputOnlyGrows : Prop :=
  ∀ (fuel : Nat) (s : State), s.out <+: (hostRun fuel s).2.out

/-- R86's result, against the machine's own steps. That o holds the output since the last reset is the model's
reading (notes/assumptions/3.md); runs are under fuel (notes/assumptions/17.md). -/
def Obligations.DoneRunIsStepsToHalt : Prop :=
  ∀ (fuel : Nat) (s t : State) (o : List OutVal), hostRun fuel s = (.done o, t) →
    ∃ (n : Nat) (u : State), n < fuel ∧ steps n s = .next u ∧ u.flt = none ∧
      u.prog.length ≤ u.pc.toNat ∧ t = { u with report := some .halted } ∧ o = u.out

/-- R88 against the machine's own steps. The frozen state and the undelivered output are the spec's decisions D11
and D13 (notes/assumptions/13.md, 17.md). -/
def Obligations.AbortedRunKeepsStateBeforeFault : Prop :=
  ∀ (fuel : Nat) (s t : State) (cause : FaultCause), hostRun fuel s = (.aborted cause, t) →
    ∃ (n : Nat) (u : State), n < fuel ∧ steps n s = .next u ∧ t = u.faulted cause

/-- Fuel is only a bound (the model's, notes/assumptions/17.md): it never changes a result. -/
def Obligations.MoreFuelSameResult : Prop :=
  ∀ (n m : Nat) (s : State), (hostRun n s).1 ≠ .outOfFuel → hostRun (n + m) s = hostRun n s

/-- R136's last sentence; that the output since the reset is kept is the model's reading (notes/assumptions/3.md). -/
def Obligations.RerunAfterDone : Prop :=
  ∀ (n m : Nat) (s t : State) (o : List OutVal), hostRun n s = (.done o, t) →
    hostRun (m + 1) t = (.done o, t)

/-- R87: nothing in the machine bounds a run. Out of fuel is the model's word for it (notes/assumptions/17.md). -/
def Obligations.JnzToItselfNeverEnds : Prop :=
  ∀ (s : State) (fuel : Nat), s.Ready → s.AtPair 3 s.pc → s.a ≠ 0 →
    (hostRun fuel s).1 = .outOfFuel ∧ hostRead (hostRun fuel s).2 = hostRead s ∧
      (hostRun fuel s).2.out = s.out

/-- The intended reading as a theorem about the machine: even targets (R134) and an even length (R138) keep every
fetch on an opcode, so no fault is possible. It is a premise on the program, not built into the machine. The run
is under fuel, the model's bound (notes/assumptions/17.md). -/
def Obligations.IntendedProgramNeverAborts : Prop :=
  ∀ (k : Nat) (is : List Instr) (s : State) (fuel : Nat), IntendedProgram k is → s.Ready →
    s.prog = assemble is → s.pc.toNat % 2 = 0 →
    ((hostRun fuel s).1 = .outOfFuel ∨ ∃ o, (hostRun fuel s).1 = .done o) ∧
      (hostRun fuel s).2.pc.toNat % 2 = 0 ∧ (hostRun fuel s).2.flt = none

/-- The invariant behind the intended reading, from every state that has it: even targets (R134) and an even
length (R138) keep every fetch on an opcode. It is a premise on the program, not built into the machine. What
`Ready` says of the life cycle is notes/assumptions/6.md. -/
def Obligations.IntendedProgramKeptByStep : Prop :=
  ∀ (k : Nat) (is : List Instr) (s t : State), IntendedProgram k is → s.Ready →
    s.prog = assemble is → s.pc.toNat % 2 = 0 → step s = .next t →
    t.Ready ∧ t.prog = assemble is ∧ t.pc.toNat % 2 = 0
end

