-- ==== Sys2Proof/Laws/Decode.lean ====
section
/-! SUPPORT. The decoder and the encoder, opcode by opcode. -/

namespace Sys2Proof

@[simp] theorem encode_fst (i : Instr) : (encode i).1 = i.opcode := rfl
@[simp] theorem encode_snd (i : Instr) : (encode i).2 = i.operand := rfl

@[simp] theorem assemble_nil : assemble [] = [] := rfl
@[simp] theorem assemble_cons (i : Instr) (is : List Instr) :
    assemble (i :: is) = i.opcode :: i.operand :: assemble is := rfl

/-- Two cells a line (30_encoding.md R60, R73). -/
@[simp] theorem assemble_length (is : List Instr) : (assemble is).length = 2 * is.length := by
  induction is with
  | nil => rfl
  | cons i is ih => simp [ih]; omega

/-- Opcodes are 0 to 7 (30_encoding.md R62). -/
theorem Instr.opcode_le (i : Instr) : i.opcode.toNat ≤ 7 := by
  cases i <;> simp [Instr.opcode]

/-- What the decoder answers: an instruction with that operand and that opcode, or a refused opcode above 7
(30_encoding.md R70). -/
theorem decode_cases (op v : Cell) :
    (∃ i, decode op v = .instr i ∧ i.opcode = op ∧ i.operand = v ∧ op.toNat ≤ 7) ∨
      (decode op v = .invalid .decodeOpcode ∧ 7 < op.toNat) := by
  unfold decode
  split
  case h_9 h0 h1 h2 h3 h4 h5 h6 h7 =>
    refine .inr ⟨rfl, ?_⟩
    by_contra hle
    interval_cases hop : op.toNat <;> simp_all
  all_goals
    rename_i h
    exact .inl ⟨_, rfl, BitVec.eq_of_toNat_eq (by simp [h, Instr.opcode]), rfl, by omega⟩

end Sys2Proof
end

