-- ==== Sys2Proof/Laws/State.lean ====
section
/-! SUPPORT. What each update of the state does to each field. -/

namespace Sys2Proof.Machine

@[simp] theorem setPc_a (t : Word) (s : State) : (setPc t s).a = s.a := rfl
@[simp] theorem setPc_b (t : Word) (s : State) : (setPc t s).b = s.b := rfl
@[simp] theorem setPc_c (t : Word) (s : State) : (setPc t s).c = s.c := rfl
@[simp] theorem setPc_pc (t : Word) (s : State) : (setPc t s).pc = t := rfl
@[simp] theorem setPc_flt (t : Word) (s : State) : (setPc t s).flt = s.flt := rfl
@[simp] theorem setPc_out (t : Word) (s : State) : (setPc t s).out = s.out := rfl
@[simp] theorem setPc_prog (t : Word) (s : State) : (setPc t s).prog = s.prog := rfl
@[simp] theorem setPc_loaded (t : Word) (s : State) : (setPc t s).loaded = s.loaded := rfl
@[simp] theorem setPc_resetDone (t : Word) (s : State) : (setPc t s).resetDone = s.resetDone := rfl
@[simp] theorem setPc_report (t : Word) (s : State) : (setPc t s).report = s.report := rfl

@[simp] theorem advance_a (s : State) : (advance s).a = s.a := rfl
@[simp] theorem advance_b (s : State) : (advance s).b = s.b := rfl
@[simp] theorem advance_c (s : State) : (advance s).c = s.c := rfl
@[simp] theorem advance_pc (s : State) : (advance s).pc = s.pc + 2 := rfl
@[simp] theorem advance_flt (s : State) : (advance s).flt = s.flt := rfl
@[simp] theorem advance_out (s : State) : (advance s).out = s.out := rfl
@[simp] theorem advance_prog (s : State) : (advance s).prog = s.prog := rfl
@[simp] theorem advance_loaded (s : State) : (advance s).loaded = s.loaded := rfl
@[simp] theorem advance_resetDone (s : State) : (advance s).resetDone = s.resetDone := rfl
@[simp] theorem advance_report (s : State) : (advance s).report = s.report := rfl

@[simp] theorem setReport_a (r : Report) (s : State) : (setReport r s).a = s.a := rfl
@[simp] theorem setReport_b (r : Report) (s : State) : (setReport r s).b = s.b := rfl
@[simp] theorem setReport_c (r : Report) (s : State) : (setReport r s).c = s.c := rfl
@[simp] theorem setReport_pc (r : Report) (s : State) : (setReport r s).pc = s.pc := rfl
@[simp] theorem setReport_flt (r : Report) (s : State) : (setReport r s).flt = s.flt := rfl
@[simp] theorem setReport_out (r : Report) (s : State) : (setReport r s).out = s.out := rfl
@[simp] theorem setReport_prog (r : Report) (s : State) : (setReport r s).prog = s.prog := rfl
@[simp] theorem setReport_loaded (r : Report) (s : State) : (setReport r s).loaded = s.loaded := rfl
@[simp] theorem setReport_resetDone (r : Report) (s : State) : (setReport r s).resetDone = s.resetDone := rfl
@[simp] theorem setReport_report (r : Report) (s : State) : (setReport r s).report = some r := rfl

@[simp] theorem emit_a (v : OutVal) (s : State) : (emit v s).a = s.a := rfl
@[simp] theorem emit_b (v : OutVal) (s : State) : (emit v s).b = s.b := rfl
@[simp] theorem emit_c (v : OutVal) (s : State) : (emit v s).c = s.c := rfl
@[simp] theorem emit_pc (v : OutVal) (s : State) : (emit v s).pc = s.pc := rfl
@[simp] theorem emit_flt (v : OutVal) (s : State) : (emit v s).flt = s.flt := rfl
@[simp] theorem emit_out (v : OutVal) (s : State) : (emit v s).out = s.out ++ [v] := rfl
@[simp] theorem emit_prog (v : OutVal) (s : State) : (emit v s).prog = s.prog := rfl
@[simp] theorem emit_loaded (v : OutVal) (s : State) : (emit v s).loaded = s.loaded := rfl
@[simp] theorem emit_resetDone (v : OutVal) (s : State) : (emit v s).resetDone = s.resetDone := rfl
@[simp] theorem emit_report (v : OutVal) (s : State) : (emit v s).report = some (.output v) := rfl

@[simp] theorem latch_a (cause : FaultCause) (s : State) : (latch cause s).a = s.a := rfl
@[simp] theorem latch_b (cause : FaultCause) (s : State) : (latch cause s).b = s.b := rfl
@[simp] theorem latch_c (cause : FaultCause) (s : State) : (latch cause s).c = s.c := rfl
@[simp] theorem latch_pc (cause : FaultCause) (s : State) : (latch cause s).pc = s.pc := rfl
@[simp] theorem latch_flt (cause : FaultCause) (s : State) : (latch cause s).flt = some cause := rfl
@[simp] theorem latch_out (cause : FaultCause) (s : State) : (latch cause s).out = s.out := rfl
@[simp] theorem latch_prog (cause : FaultCause) (s : State) : (latch cause s).prog = s.prog := rfl
@[simp] theorem latch_loaded (cause : FaultCause) (s : State) : (latch cause s).loaded = s.loaded := rfl
@[simp] theorem latch_resetDone (cause : FaultCause) (s : State) : (latch cause s).resetDone = s.resetDone := rfl
@[simp] theorem latch_report (cause : FaultCause) (s : State) : (latch cause s).report = some (.fault cause) := rfl

@[simp] theorem hostReset_a (a b c : Word) (s : State) : (hostReset a b c s).a = a := rfl
@[simp] theorem hostReset_b (a b c : Word) (s : State) : (hostReset a b c s).b = b := rfl
@[simp] theorem hostReset_c (a b c : Word) (s : State) : (hostReset a b c s).c = c := rfl
@[simp] theorem hostReset_pc (a b c : Word) (s : State) : (hostReset a b c s).pc = 0 := rfl
@[simp] theorem hostReset_flt (a b c : Word) (s : State) : (hostReset a b c s).flt = none := rfl
@[simp] theorem hostReset_out (a b c : Word) (s : State) : (hostReset a b c s).out = [] := rfl
@[simp] theorem hostReset_prog (a b c : Word) (s : State) : (hostReset a b c s).prog = s.prog := rfl
@[simp] theorem hostReset_loaded (a b c : Word) (s : State) : (hostReset a b c s).loaded = s.loaded := rfl
@[simp] theorem hostReset_resetDone (a b c : Word) (s : State) : (hostReset a b c s).resetDone = true := rfl
@[simp] theorem hostReset_report (a b c : Word) (s : State) : (hostReset a b c s).report = none := rfl

@[simp] theorem writeReg_a (r : Reg) (v : Word) (s : State) : (writeReg r v s).a = if r = .a then v else s.a := by
  cases r <;> rfl
@[simp] theorem writeReg_b (r : Reg) (v : Word) (s : State) : (writeReg r v s).b = if r = .b then v else s.b := by
  cases r <;> rfl
@[simp] theorem writeReg_c (r : Reg) (v : Word) (s : State) : (writeReg r v s).c = if r = .c then v else s.c := by
  cases r <;> rfl
@[simp] theorem writeReg_pc (r : Reg) (v : Word) (s : State) : (writeReg r v s).pc = s.pc := by
  cases r <;> rfl
@[simp] theorem writeReg_flt (r : Reg) (v : Word) (s : State) : (writeReg r v s).flt = s.flt := by
  cases r <;> rfl
@[simp] theorem writeReg_out (r : Reg) (v : Word) (s : State) : (writeReg r v s).out = s.out := by
  cases r <;> rfl
@[simp] theorem writeReg_prog (r : Reg) (v : Word) (s : State) : (writeReg r v s).prog = s.prog := by
  cases r <;> rfl
@[simp] theorem writeReg_loaded (r : Reg) (v : Word) (s : State) : (writeReg r v s).loaded = s.loaded := by
  cases r <;> rfl
@[simp] theorem writeReg_resetDone (r : Reg) (v : Word) (s : State) : (writeReg r v s).resetDone = s.resetDone := by
  cases r <;> rfl
@[simp] theorem writeReg_report (r : Reg) (v : Word) (s : State) : (writeReg r v s).report = s.report := by
  cases r <;> rfl

@[simp] theorem readReg_a (s : State) : readReg s .a = s.a := rfl
@[simp] theorem readReg_b (s : State) : readReg s .b = s.b := rfl
@[simp] theorem readReg_c (s : State) : readReg s .c = s.c := rfl

/-- A register write is seen by a read of that register and by no other (10_state.md R22, R23). -/
theorem readReg_writeReg (r q : Reg) (v : Word) (s : State) :
    readReg (writeReg r v s) q = if q = r then v else readReg s q := by
  cases r <;> cases q <;> rfl

/-- Updates of the pointer, the report, OUT and the latch leave every register. -/
@[simp] theorem readReg_setPc (t : Word) (s : State) (r : Reg) : readReg (setPc t s) r = readReg s r := by
  cases r <;> rfl
@[simp] theorem readReg_advance (s : State) (r : Reg) : readReg (advance s) r = readReg s r := by
  cases r <;> rfl
@[simp] theorem readReg_setReport (x : Report) (s : State) (r : Reg) : readReg (setReport x s) r = readReg s r := by
  cases r <;> rfl
@[simp] theorem readReg_emit (v : OutVal) (s : State) (r : Reg) : readReg (emit v s) r = readReg s r := by
  cases r <;> rfl
@[simp] theorem readReg_latch (cause : FaultCause) (s : State) (r : Reg) : readReg (latch cause s) r = readReg s r := by
  cases r <;> rfl

/-- `State.reset` is the reset operation with zero arguments (10_state.md R35). -/
theorem hostReset_reset : hostReset 0 0 0 State.reset = State.reset := rfl

end Sys2Proof.Machine
end

