-- ==== Sys2Proof/Laws/Ops.lean ====
section
/-! SUPPORT. One lemma per shared operation: everything it can do. -/

namespace Sys2Proof.Machine

/-- The quotient is the mathematical one (41_divide.md R90, R94). -/
theorem shr64_toNat (a n : Word) : (shr64 a n).toNat = a.toNat / 2 ^ n.toNat := by
  unfold shr64
  split
  · simp [BitVec.toNat_ushiftRight, Nat.shiftRight_eq_div_pow]
  · rename_i h
    have hpow : 2 ^ 64 ≤ 2 ^ n.toNat := Nat.pow_le_pow_right (by decide) (by omega)
    exact (Nat.div_eq_of_lt (lt_of_lt_of_le a.isLt hpow)).symm

/-- The same as a word. -/
theorem shr64_eq (a n : Word) : shr64 a n = BitVec.ofNat 64 (a.toNat / 2 ^ n.toNat) := by
  apply BitVec.eq_of_toNat_eq
  rw [shr64_toNat, BitVec.toNat_ofNat, Nat.mod_eq_of_lt (lt_of_le_of_lt (Nat.div_le_self _ _) a.isLt)]

/-- `n mod 8` as a number (42_xor_mod.md R98). -/
theorem mod8_toNat (n : Word) : (mod8 n).toNat = n.toNat % 8 := by
  simp [mod8]

/-- Zero extension keeps the value. -/
theorem zext64_toNat (v : OutVal) : (zext64 v).toNat = v.toNat := by
  have := v.isLt
  simp only [zext64, BitVec.toNat_setWidth]
  exact Nat.mod_eq_of_lt (by omega)

/-- What the combo decoder answers, by the operand's value (30_encoding.md R66). -/
theorem combo_cases (s : State) (v : Cell) :
    (v.toNat ≤ 3 ∧ combo s v = some v) ∨ (v = 4 ∧ combo s v = some s.a) ∨ (v = 5 ∧ combo s v = some s.b) ∨
      (v = 6 ∧ combo s v = some s.c) ∨ (7 ≤ v.toNat ∧ combo s v = none) := by
  by_cases h7 : 7 ≤ v.toNat
  · refine .inr (.inr (.inr (.inr ⟨h7, ?_⟩)))
    unfold combo
    split <;> first | rfl | omega
  · have hv : v = BitVec.ofNat 64 v.toNat := by simp
    generalize v.toNat = m at hv h7
    subst hv
    interval_cases m <;> simp [combo, literal]

/-- The decoder has a value exactly for the operands 0 to 6. -/
theorem combo_isSome_iff (s : State) (v : Cell) : (∃ n, combo s v = some n) ↔ v.toNat ≤ 6 := by
  obtain ⟨h, e⟩ | ⟨rfl, e⟩ | ⟨rfl, e⟩ | ⟨rfl, e⟩ | ⟨h, e⟩ := combo_cases s v <;> rw [e] <;> simp <;> omega

theorem combo_eq_none_iff (s : State) (v : Cell) : combo s v = none ↔ 7 ≤ v.toNat := by
  obtain ⟨h, e⟩ | ⟨rfl, e⟩ | ⟨rfl, e⟩ | ⟨rfl, e⟩ | ⟨h, e⟩ := combo_cases s v <;> rw [e] <;> simp <;> omega

/-- The frame of the combo instructions: the body with the operand's value, or DecodeOperand with nothing written. -/
theorem withCombo_cases (s : State) (v : Cell) (body : Word → Host.Outcome State Fault Refusal) :
    (∃ n, combo s v = some n ∧ v.toNat ≤ 6 ∧ withCombo s v body = body n) ∨
      (combo s v = none ∧ 7 ≤ v.toNat ∧ withCombo s v body = .next (latch .decodeOperand s)) := by
  unfold withCombo
  cases h : combo s v with
  | some n => exact .inl ⟨n, rfl, (combo_isSome_iff s v).1 ⟨n, h⟩, rfl⟩
  | none => exact .inr ⟨rfl, (combo_eq_none_iff s v).1 h, rfl⟩

theorem withCombo_some {s : State} {v : Cell} {n : Word} (h : combo s v = some n)
    (body : Word → Host.Outcome State Fault Refusal) : withCombo s v body = body n := by
  simp [withCombo, h]

theorem withCombo_none {s : State} {v : Cell} (h : 7 ≤ v.toNat)
    (body : Word → Host.Outcome State Fault Refusal) : withCombo s v body = .next (latch .decodeOperand s) := by
  simp [withCombo, (combo_eq_none_iff s v).2 h, raise]

@[simp] theorem finish_eq (s : State) : finish s = .next (setReport .cont s) := rfl
@[simp] theorem raise_eq (cause : FaultCause) (s : State) : raise cause s = .next (latch cause s) := rfl
@[simp] theorem literal_eq (v : Cell) : literal v = v := rfl
theorem aNonzero_iff (s : State) : aNonzero s = true ↔ s.a ≠ 0 := by simp [aNonzero]

/-- The codes of the fault latch are 1 to 3, 0 standing for no fault (10_state.md R29). -/
theorem fltCode_eq_zero_iff (flt : Option FaultCause) : fltCode flt = 0 ↔ flt = none := by
  cases flt with
  | none => simp [fltCode]
  | some cause => cases cause <;> simp [fltCode, faultCode]

end Sys2Proof.Machine
end

