-- ==== Sys2Proof/Laws/Memory.lean ====
section
/-! SUPPORT. Program memory: what a read gives, and that every operation keeps the memory's form. -/

namespace Sys2Proof.Machine

@[simp] theorem Memory.read_eq (m : Memory) (i : Nat) : Memory.read m i = m[i]? := rfl

/-- A pair is read exactly when both cells exist (20_memory.md R43). -/
theorem Memory.readPair_eq_some {m : Memory} {i : Nat} {op v : Cell} :
    Memory.readPair m i = some (op, v) ↔ m[i]? = some op ∧ m[i + 1]? = some v := by
  simp only [Memory.readPair, Memory.read]
  cases m[i]? <;> cases m[i + 1]? <;> simp

/-- No pair is read exactly when the operand's index is not below L (20_memory.md R47). -/
theorem Memory.readPair_eq_none {m : Memory} {i : Nat} :
    Memory.readPair m i = none ↔ m.length ≤ i + 1 := by
  simp only [Memory.readPair, Memory.read]
  by_cases h : i + 1 < m.length
  · simp [List.getElem?_eq_getElem (Nat.lt_of_succ_lt h), h]
  · rw [List.getElem?_eq_none (l := m) (i := i + 1) (by omega)]
    cases m[i]? <;> simp <;> omega

/-- A placed pair is what a fetch at that index reads. -/
theorem Memory.readPair_placePair (m : Memory) (i : Nat) (pair : Cell × Cell) :
    Memory.readPair (Memory.placePair m i pair) i = some pair := by
  have hlen : ((m ++ List.replicate (i - m.length) 0).take i).length = i := by simp; omega
  refine Memory.readPair_eq_some.2 ⟨?_, ?_⟩ <;>
    simp only [Memory.placePair, List.append_assoc] <;>
    rw [List.getElem?_append_right (by omega), hlen] <;> simp

/-- Placing a pair leaves every other cell that was there. -/
theorem Memory.read_placePair_of_ne (m : Memory) (i j : Nat) (pair : Cell × Cell) (hj : j < m.length)
    (h0 : j ≠ i) (h1 : j ≠ i + 1) : Memory.read (Memory.placePair m i pair) j = Memory.read m j := by
  have hlen : ((m ++ List.replicate (i - m.length) 0).take i).length = i := by simp; omega
  simp only [Memory.read, Memory.placePair, List.append_assoc]
  by_cases hlt : j < i
  · rw [List.getElem?_append_left (by omega), List.getElem?_take_of_lt hlt, List.getElem?_append_left hj]
  · rw [List.getElem?_append_right (by omega), hlen, List.getElem?_append_right (by simp; omega)]
    simp only [List.length_cons, List.length_nil, List.getElem?_drop]
    congr 1
    omega

theorem Memory.placePair_length (m : Memory) (i : Nat) (pair : Cell × Cell) :
    (Memory.placePair m i pair).length = max m.length (i + 2) := by
  simp [Memory.placePair]; omega

/-- What the form of memory says. -/
theorem Memory.wf_iff {k : Nat} {m : Memory} :
    Memory.wf k m = true ↔ m.length ≤ Config.maxProgLength ∧ ∀ v ∈ m, v.toNat < 2 ^ k := by
  simp [Memory.wf]

/-- Memory with nothing listed has the form. -/
theorem Memory.wf_reset (k : Nat) : Memory.wf k State.reset.prog = true := by
  simp [Memory.wf, State.reset]

/-- A cell that is read has a value of `k` bits. -/
theorem Memory.lt_of_wf {k : Nat} {m : Memory} (h : Memory.wf k m = true) {i : Nat} {v : Cell}
    (hv : m[i]? = some v) : v.toNat < 2 ^ k :=
  (Memory.wf_iff.1 h).2 v (List.mem_of_getElem? hv)

/-- Placing two cells of `k` bits below the bound on L keeps the form. -/
theorem Memory.wf_placePair {k : Nat} {m : Memory} {i : Nat} {pair : Cell × Cell} (h : Memory.wf k m = true)
    (hi : i + 2 ≤ Config.maxProgLength) (h1 : pair.1.toNat < 2 ^ k) (h2 : pair.2.toNat < 2 ^ k) :
    Memory.wf k (Memory.placePair m i pair) = true := by
  obtain ⟨hlen, hall⟩ := Memory.wf_iff.1 h
  refine Memory.wf_iff.2 ⟨by rw [Memory.placePair_length]; omega, fun v hv => ?_⟩
  simp only [Memory.placePair, List.mem_append, List.mem_cons, List.not_mem_nil, or_false] at hv
  obtain (hv | rfl | rfl) | hv := hv
  · obtain hv | hv := List.mem_append.1 (List.mem_of_mem_take hv)
    · exact hall v hv
    · rw [List.eq_of_mem_replicate hv]; simp
  · exact h1
  · exact h2
  · exact hall v (List.mem_of_mem_drop hv)

/-- A load's cells have the form (70_reset_and_hazards.md R131). -/
theorem Memory.wf_load {k : Nat} (cells : List (BitVec k)) (hlen : cells.length ≤ Config.maxProgLength) :
    Memory.wf k (cells.map (BitVec.setWidth 64)) = true := by
  refine Memory.wf_iff.2 ⟨by simpa using hlen, fun v hv => ?_⟩
  obtain ⟨w, -, rfl⟩ := List.mem_map.1 hv
  rw [BitVec.toNat_setWidth]
  exact lt_of_le_of_lt (Nat.mod_le _ _) w.isLt

end Sys2Proof.Machine
end

