-- ==== Sys2Proof/Laws/Step.lean ====
section
/-! SUPPORT. What an instruction and a step can do, said once. -/

namespace Sys2Proof.Machine

/-- What the divide family does: DecodeOperand, or the quotient in its register. -/
theorem divideInto_cases (dst : Reg) (v : Cell) (s : State) :
    (7 ≤ v.toNat ∧ divideInto dst v s = .next (latch .decodeOperand s)) ∨
      (∃ n, combo s v = some n ∧ v.toNat ≤ 6 ∧
        divideInto dst v s = .next (setReport .cont (advance (writeReg dst (shr64 s.a n) s)))) := by
  obtain ⟨n, hn, hv, e⟩ | ⟨-, hv, e⟩ := withCombo_cases s v
    fun n => finish (advance (writeReg dst (shr64 (readReg s .a) n) s))
  · exact .inr ⟨n, hn, hv, e⟩
  · exact .inl ⟨hv, e⟩

/-- What `bst` does. -/
theorem execBst_cases (v : Cell) (s : State) :
    (7 ≤ v.toNat ∧ execBst v s = .next (latch .decodeOperand s)) ∨
      (∃ n, combo s v = some n ∧ v.toNat ≤ 6 ∧
        execBst v s = .next (setReport .cont (advance (writeReg .b (zext64 (mod8 n)) s)))) := by
  obtain ⟨n, hn, hv, e⟩ | ⟨-, hv, e⟩ := withCombo_cases s v
    fun n => finish (advance (writeReg .b (zext64 (mod8 n)) s))
  · exact .inr ⟨n, hn, hv, e⟩
  · exact .inl ⟨hv, e⟩

/-- What `out` does. -/
theorem execOut_cases (v : Cell) (s : State) :
    (7 ≤ v.toNat ∧ execOut v s = .next (latch .decodeOperand s)) ∨
      (∃ n, combo s v = some n ∧ v.toNat ≤ 6 ∧ execOut v s = .next (advance (emit (mod8 n) s))) := by
  obtain ⟨n, hn, hv, e⟩ | ⟨-, hv, e⟩ := withCombo_cases s v fun n => .next (advance (emit (mod8 n) s))
  · exact .inr ⟨n, hn, hv, e⟩
  · exact .inl ⟨hv, e⟩

/-- What `jnz` does. -/
theorem execJnz_cases (v : Cell) (s : State) :
    (s.a ≠ 0 ∧ execJnz v s = .next (setReport .cont (setPc v s))) ∨
      (s.a = 0 ∧ execJnz v s = .next (setReport .cont (advance s))) := by
  unfold execJnz
  split
  case isTrue h => exact .inl ⟨(aNonzero_iff s).1 h, rfl⟩
  case isFalse h => exact .inr ⟨by simpa [aNonzero_iff] using h, rfl⟩

/-- The state an instruction that ran leaves, less its registers. -/
structure Ran (i : Instr) (s t : State) : Prop where
  flt : t.flt = s.flt
  prog : t.prog = s.prog
  loaded : t.loaded = s.loaded
  resetDone : t.resetDone = s.resetDone
  pc : t.pc = s.pc + 2 ∨ ∃ v, i = .jnz v ∧ s.a ≠ 0 ∧ t.pc = v
  report : (t.report = some .cont ∧ t.out = s.out) ∨
    ∃ w, t.report = some (.output w) ∧ t.out = s.out ++ [w]

/-- Every instruction answers a next state: it raises DecodeOperand for an illegal combo operand, or it runs. -/
theorem exec_cases (i : Instr) (s : State) :
    (i.comboLegal = false ∧ exec i s = .next (latch .decodeOperand s)) ∨
      (i.comboLegal = true ∧ ∃ t, exec i s = .next t ∧ Ran i s t) := by
  have divide : ∀ dst v, (7 ≤ v.toNat ∧ divideInto dst v s = .next (latch .decodeOperand s)) ∨
      (v.toNat ≤ 6 ∧ ∃ t, divideInto dst v s = .next t ∧ ∀ i, Ran i s t) := by
    intro dst v
    obtain h | ⟨n, -, hv, e⟩ := divideInto_cases dst v s
    · exact .inl h
    · exact .inr ⟨hv, _, e, fun i => by constructor <;> simp⟩
  cases i with
  | adv v =>
    obtain ⟨hv, e⟩ | ⟨hv, t, e, r⟩ := divide .a v
    · exact .inl ⟨decide_eq_false (show ¬ v.toNat ≤ 6 by omega), e⟩
    · exact .inr ⟨decide_eq_true hv, t, e, r _⟩
  | bdv v =>
    obtain ⟨hv, e⟩ | ⟨hv, t, e, r⟩ := divide .b v
    · exact .inl ⟨decide_eq_false (show ¬ v.toNat ≤ 6 by omega), e⟩
    · exact .inr ⟨decide_eq_true hv, t, e, r _⟩
  | cdv v =>
    obtain ⟨hv, e⟩ | ⟨hv, t, e, r⟩ := divide .c v
    · exact .inl ⟨decide_eq_false (show ¬ v.toNat ≤ 6 by omega), e⟩
    · exact .inr ⟨decide_eq_true hv, t, e, r _⟩
  | bst v =>
    obtain ⟨hv, e⟩ | ⟨n, -, hv, e⟩ := execBst_cases v s
    · exact .inl ⟨decide_eq_false (show ¬ v.toNat ≤ 6 by omega), e⟩
    · exact .inr ⟨decide_eq_true hv, _, e,
        by constructor <;> simp⟩
  | out v =>
    obtain ⟨hv, e⟩ | ⟨n, -, hv, e⟩ := execOut_cases v s
    · exact .inl ⟨decide_eq_false (show ¬ v.toNat ≤ 6 by omega), e⟩
    · exact .inr ⟨decide_eq_true hv, _, e,
        by constructor <;> simp⟩
  | bxl v => exact .inr ⟨rfl, _, rfl, by constructor <;> simp⟩
  | bxc v => exact .inr ⟨rfl, _, rfl, by constructor <;> simp⟩
  | jnz v =>
    obtain ⟨ha, e⟩ | ⟨ha, e⟩ := execJnz_cases v s
    · exact .inr ⟨rfl, _, e, by constructor <;> simp [show s.a ≠ 0#64 from ha]⟩
    · exact .inr ⟨rfl, _, e, by constructor <;> simp⟩

/-- An instruction always answers a next state. -/
theorem exec_next (i : Instr) (s : State) : ∃ t, exec i s = .next t := by
  obtain ⟨-, e⟩ | ⟨-, t, e, -⟩ := exec_cases i s
  · exact ⟨_, e⟩
  · exact ⟨t, e⟩

/-- A step that has a meaning is the checked step. -/
theorem step_of_running {s : State} (h : s.Running) : step s = checkedStep s := by
  simp [step, cycle, h.1, h.2]

/-- Everything a step can do: it repeats a latched fault, reports Halted, raises FetchOperand or DecodeOpcode, or runs
the instruction at the pointer (40_step_and_run.md R80). -/
theorem step_cases {s t : State} (h : step s = .next t) :
    s.Running ∧
      ((∃ cause, s.flt = some cause ∧ t = setReport (.fault cause) s) ∨
        (s.flt = none ∧ s.prog.length ≤ s.pc.toNat ∧ t = setReport .halted s) ∨
        (s.flt = none ∧ s.pc.toNat + 1 = s.prog.length ∧ t = latch .fetchOperand s) ∨
        (s.flt = none ∧ ∃ op v, s.AtPair op v ∧ 7 < op.toNat ∧ t = latch .decodeOpcode s) ∨
        (s.flt = none ∧ ∃ op v i, s.AtPair op v ∧ decode op v = .instr i ∧ exec i s = .next t)) := by
  have hrun : s.Running := by
    by_contra hn
    simp only [step, cycle] at h
    split at h
    · split at h
      · exact hn ⟨‹_›, ‹_›⟩
      · cases h
    · cases h
  refine ⟨hrun, ?_⟩
  rw [step_of_running hrun, checkedStep] at h
  split at h
  case h_1 cause hf =>
    cases h
    exact .inl ⟨cause, hf, rfl⟩
  case h_2 hf =>
    refine .inr ?_
    split at h
    case isTrue hle =>
      cases h
      exact .inl ⟨hf, hle, rfl⟩
    case isFalse hle =>
      refine .inr ?_
      rw [fetchAndExecute] at h
      split at h
      case h_1 hnone =>
        cases h
        have := Memory.readPair_eq_none.1 hnone
        exact .inl ⟨hf, by omega, rfl⟩
      case h_2 op v hpair =>
        have hat := Memory.readPair_eq_some.1 hpair
        obtain ⟨i, hd, -, -, -⟩ | ⟨hd, hop⟩ := decode_cases op v
        · simp only [hd] at h
          exact .inr (.inr ⟨hf, op, v, i, hat, hd, h⟩)
        · simp only [hd] at h
          cases h
          exact .inr (.inl ⟨hf, op, v, hat, hop, rfl⟩)

/-- The cells at the pointer lie below L. -/
theorem AtPair_lt {s : State} {op v : Cell} (h : s.AtPair op v) : s.pc.toNat + 1 < s.prog.length :=
  (List.getElem?_eq_some_iff.1 h.2).1

/-- A step at two cells decodes and executes them. -/
theorem step_at {s : State} {op v : Cell} (h : s.Ready) (hat : s.AtPair op v) :
    step s = match decode op v with
      | .invalid cause => .next (latch cause s)
      | .instr i => exec i s := by
  have hlt := AtPair_lt hat
  rw [step_of_running h.1, checkedStep, h.2]
  simp only [if_neg (show ¬ s.prog.length ≤ s.pc.toNat by omega), fetchAndExecute,
    Memory.readPair_eq_some.2 hat]
  cases decode op v <;> rfl

/-- One step more, at the front. -/
theorem steps_succ {n : Nat} {s t : State} (h : step s = .next t) : steps (n + 1) s = steps n t := by
  simp [steps, h]

/-- Which outcome ends a run. -/
theorem hostRun_succ {fuel : Nat} {s t : State} (h : step s = .next t) :
    hostRun (fuel + 1) s = match t.report with
      | some .halted => (.done t.out, t)
      | some (.fault cause) => (.aborted cause, t)
      | _ => hostRun fuel t := by
  simp only [hostRun, h]
  split <;> simp_all

/-- A step with no meaning ends the run. -/
theorem hostRun_refused {fuel : Nat} {s : State} {why : Refusal} (h : step s = .refused why) :
    hostRun (fuel + 1) s = (.refused why, s) := by
  simp [hostRun, h]

end Sys2Proof.Machine
end

