-- ==== Sys2Proof/Laws/Host.lean ====
section
/-! SUPPORT. What the host's operations can do, and the induction over a run, said once. -/

namespace Sys2Proof.Machine

/-- Everything a load can do (70_reset_and_hazards.md R131, 00_scope.md R6, R8). -/
theorem hostLoad_cases (k : Nat) (cells : List (BitVec k)) (s : State) :
    (Config.legalCellBits k ∧ cells.length ≤ Config.maxProgLength ∧
      hostLoad k cells s =
        .next { s with prog := cells.map (BitVec.setWidth 64), loaded := true, resetDone := false }) ∨
      (Config.legalCellBits k ∧ Config.maxProgLength < cells.length ∧
        hostLoad k cells s = .refused .programTooLong) ∨
      (¬ Config.legalCellBits k ∧ hostLoad k cells s = .refused .cellBitsIllegal) := by
  unfold hostLoad
  split
  case isTrue hk =>
    split
    case isTrue hl => exact .inl ⟨hk, hl, rfl⟩
    case isFalse hl => exact .inr (.inl ⟨hk, by omega, rfl⟩)
  case isFalse hk => exact .inr (.inr ⟨hk, rfl⟩)

/-- What holds of a state and itself, and is carried back over one step, holds of a run's start and end. -/
theorem hostRun_induct (P : State → State → Prop) (refl : ∀ s, P s s)
    (step_back : ∀ s t u, step s = .next t → P t u → P s u) (fuel : Nat) (s : State) :
    P s (hostRun fuel s).2 := by
  induction fuel generalizing s with
  | zero => exact refl s
  | succ fuel ih =>
    cases h : step s with
    | next t =>
      rw [hostRun_succ h]
      split
      · exact step_back _ _ _ h (refl t)
      · exact step_back _ _ _ h (refl t)
      · exact step_back _ _ _ h (ih t)
    | fault why => cases why
    | refused why => rw [hostRun_refused h]; exact refl s

end Sys2Proof.Machine
end

