-- ==== Sys2Proof/Laws/PerInstr.lean ====
section
/-! SUPPORT. Statements about every instruction as syntax, one lemma per constructor. -/

namespace Sys2Proof.Laws

/-- Decoding the two cells of an instruction gives it back (30_encoding.md R62, R70). -/
def RoundTrip.Statement (i : Instr) : Prop :=
  decode (encode i).1 (encode i).2 = .instr i

theorem RoundTrip.adv (v : Cell) : RoundTrip.Statement (.adv v) := rfl
theorem RoundTrip.bxl (v : Cell) : RoundTrip.Statement (.bxl v) := rfl
theorem RoundTrip.bst (v : Cell) : RoundTrip.Statement (.bst v) := rfl
theorem RoundTrip.jnz (v : Cell) : RoundTrip.Statement (.jnz v) := rfl
theorem RoundTrip.bxc (v : Cell) : RoundTrip.Statement (.bxc v) := rfl
theorem RoundTrip.out (v : Cell) : RoundTrip.Statement (.out v) := rfl
theorem RoundTrip.bdv (v : Cell) : RoundTrip.Statement (.bdv v) := rfl
theorem RoundTrip.cdv (v : Cell) : RoundTrip.Statement (.cdv v) := rfl

end Sys2Proof.Laws
end

