-- ==== Sys2Proof/Tests/Slice0.lean ====
section
/-! SUPPORT. The model's own tests. Expected values come from the spec: its encodings (30_encoding.md R62, R71) and
its vectors (95_test_vectors.md S1 to S5, V1 to V55, P1 to P5). After them, one witness for the premises of every
statement that has premises, at the ends of their ranges. -/

namespace Sys2Proof.Tests

open Sys2Proof.Machine

/-- A machine after load and reset, at `pc`. -/
def boot (a b c : Word) (pc : Word) (cells : List Cell) : State :=
  { State.reset with a := a, b := b, c := c, pc := pc, prog := cells, loaded := true }

/-- A, B, C, pc and the outcome after one step, where it answers a next state. -/
def after (s : State) : Option (Word × Word × Word × Word × Option Report) :=
  match step s with
  | .next t => some (t.a, t.b, t.c, t.pc, t.report)
  | .fault _ => none
  | .refused _ => none

/-- Why a step was refused. -/
def refusal (o : Host.Outcome State Fault Refusal) : Option Refusal :=
  match o with
  | .next _ => none
  | .fault _ => none
  | .refused why => some why

/-! ### Well-formedness: one ill-formed term for each check -/

theorem test_wellFormed_refuses_operand_wider_than_cell : (Instr.bxl 8).wellFormed 3 = false := by decide
theorem test_wellFormed_refuses_combo_seven : (Instr.adv 7).wellFormed 3 = false := by decide
theorem test_wellFormed_refuses_combo_above_seven : (Instr.out 8).wellFormed 4 = false := by decide
theorem test_wellFormed_accepts_literal_seven : (Instr.bxl 7).wellFormed 3 = true := by decide
theorem test_wellFormed_accepts_ignored_seven : (Instr.bxc 7).wellFormed 3 = true := by decide

/-! ### Decoding: words written out bit by bit from the encoding strings of the opcode table -/

theorem test_decode_adv : decodeTableWord 8 0b000011 = some (.adv 3) := by decide
theorem test_decode_bxl : decodeTableWord 8 0b001111 = some (.bxl 7) := by decide
theorem test_decode_bst : decodeTableWord 8 0b010110 = some (.bst 6) := by decide
theorem test_decode_jnz : decodeTableWord 8 0b011000 = some (.jnz 0) := by decide
theorem test_decode_bxc : decodeTableWord 8 0b100111 = some (.bxc 7) := by decide
theorem test_decode_out : decodeTableWord 8 0b101100 = some (.out 4) := by decide
theorem test_decode_bdv : decodeTableWord 8 0b110101 = some (.bdv 5) := by decide
theorem test_decode_cdv : decodeTableWord 8 0b111110 = some (.cdv 6) := by decide
theorem test_decode_opcode_eight : decode 8 0 = .invalid .decodeOpcode := by decide
/-- The cells of P5 (95_test_vectors.md). -/
theorem test_assemble_p5 : assemble [.adv 3, .out 4, .jnz 0] = [0, 3, 5, 4, 3, 0] := by decide
/-- `out 4` is packed 54 octal in P1. -/
theorem test_packWord_out : packWord (.out 4) = 44 := by decide
theorem test_asmLine : (Instr.bxc 0).asmLine = "bxc 0" := by decide

/-! ### One step of each instruction -/

/-- V5. -/
theorem test_adv_shift_63 : after (boot (1 <<< 63) 63 0 0 [0, 5]) = some (1, 63, 0, 2, some .cont) := by decide
/-- V6. -/
theorem test_adv_shift_64 : after (boot (-1) 64 0 0 [0, 5]) = some (0, 64, 0, 2, some .cont) := by decide
/-- V14. -/
theorem test_bdv_reads_old_b : after (boot 100 3 0 0 [6, 5]) = some (100, 12, 0, 2, some .cont) := by decide
/-- V12. -/
theorem test_bdv_unsigned :
    after (boot (-1) 0 0 0 [6, 1]) = some (-1, 0x7FFFFFFFFFFFFFFF, 0, 2, some .cont) := by decide
/-- V16. -/
theorem test_cdv_reads_old_c : after (boot 256 0 4 0 [7, 6]) = some (256, 0, 16, 2, some .cont) := by decide
/-- V20. -/
theorem test_cdv_seven_faults :
    after (boot 1 2 3 0 [7, 7]) = some (1, 2, 3, 0, some (.fault .decodeOperand)) := by decide
/-- V21. -/
theorem test_bxl_seven : after (boot 0 29 0 0 [1, 7]) = some (0, 26, 0, 2, some .cont) := by decide
/-- V24. -/
theorem test_bxl_four_is_a_number : after (boot 99 0 0 0 [1, 4]) = some (99, 4, 0, 2, some .cont) := by decide
/-- S1. -/
theorem test_bst_c : after (boot 0 0 9 0 [2, 6]) = some (0, 1, 9, 2, some .cont) := by decide
/-- V27. -/
theorem test_bst_reads_old_b : after (boot 0 13 0 0 [2, 5]) = some (0, 5, 0, 2, some .cont) := by decide
/-- V31. -/
theorem test_bxc_ignores_seven :
    after (boot 0 2024 43690 0 [4, 7]) = some (0, 44354, 43690, 2, some .cont) := by decide
/-- V36. -/
theorem test_jnz_absolute :
    after (boot 0x8000000000000000 0 0 2 [5, 0, 3, 4, 5, 1]) =
      some (0x8000000000000000, 0, 0, 4, some .cont) := by decide
/-- V34. -/
theorem test_jnz_untaken : after (boot 0 0 0 0 [3, 0]) = some (0, 0, 0, 2, some .cont) := by decide
/-- V41. -/
theorem test_out_a : after (boot 10 0 0 0 [5, 4]) = some (10, 0, 0, 2, some (.output 2)) := by decide
/-- V44. -/
theorem test_out_seven_faults :
    after (boot 1 2 3 0 [5, 7]) = some (1, 2, 3, 0, some (.fault .decodeOperand)) := by decide

/-! ### The step around them -/

/-- V46. -/
theorem test_empty_program_halts : after (boot 1 2 3 0 []) = some (1, 2, 3, 0, some .halted) := by decide
/-- V48, second step: the jump's odd target is the last cell. -/
theorem test_operand_past_end :
    after (boot 1 0 0 1 [3, 1]) = some (1, 0, 0, 1, some (.fault .fetchOperand)) := by decide
/-- V50. -/
theorem test_fetch_before_opcode :
    after (boot 1 2 3 0 [9]) = some (1, 2, 3, 0, some (.fault .fetchOperand)) := by decide
/-- V51. -/
theorem test_opcode_before_operand :
    after (boot 1 2 3 0 [9, 7]) = some (1, 2, 3, 0, some (.fault .decodeOpcode)) := by decide
/-- V52. -/
theorem test_fault_repeats :
    after { boot 1 2 3 0 [0, 7] with flt := some .decodeOperand } =
      some (1, 2, 3, 0, some (.fault .decodeOperand)) := by decide
/-- P3a, step 2: an odd pointer executes. -/
theorem test_odd_pointer :
    after (boot 83 0 0 3 [3, 3, 1, 5, 4, 0, 3, 3, 3]) = some (83, 0, 0, 5, some (.output 3)) := by decide
/-- U5: nothing is loaded at reset. -/
theorem test_step_before_load : refusal (step State.reset) = some .stepBeforeLoad := by decide
/-- V55. -/
theorem test_reset_clears_fault :
    hostRead (hostReset 4 5 6 { boot 1 2 3 0 [0, 7] with flt := some .decodeOperand }) = ⟨4, 5, 6, 0, 0⟩ := by
  decide
/-- A packed word placed at reset is what the next step runs. -/
theorem test_fetchWord_out_zero :
    after (State.reset.withFetchWord 8 0b101000) = some (0, 0, 0, 2, some (.output 0)) := by decide

/-! ### Witnesses for the premises of the statements -/

theorem witness_LoadedAssemblyDecodesBack :
    Config.legalCellBits 3 ∧ Config.legalCellBits 64 ∧ (∀ i ∈ [Instr.jnz 7, .adv 7], i.operandFits 3 = true) ∧
      2 * [Instr.jnz 7, .adv 7].length ≤ Config.maxProgLength := by decide
theorem witness_PackedWordsDecode : (Instr.cdv 7).operandFits 3 = true ∧ 63 < 64 ∧ 64 ≤ 255 ∧ 255 < 256 := by
  decide
theorem witness_StepRunsDecodedInstruction :
    (boot 5 0 0 1 [9, 3, 7]).Ready ∧ (boot 5 0 0 1 [9, 3, 7]).AtPair 3 7 ∧ decode 3 7 = .instr (.jnz 7) := by
  decide
theorem witness_FetchWordRunsAsPlaced : decodeTableWord 8 63 = some (.cdv 7) := by decide
theorem witness_StepPriority_latched :
    (State.Running { boot 1 2 3 9 [] with flt := some .fetchOperand }) ∧
      ({ boot 1 2 3 9 [] with flt := some .fetchOperand } : State).flt = some .fetchOperand := by decide
theorem witness_StepPriority_halted :
    (boot 0 0 0 2 [5, 1]).Ready ∧ (boot 0 0 0 2 [5, 1]).prog.length ≤ (boot 0 0 0 2 [5, 1]).pc.toNat := by decide
theorem witness_StepPriority_fetch :
    (boot 0 0 0 0 [9]).Ready ∧ (boot 0 0 0 0 [9]).pc.toNat + 1 = (boot 0 0 0 0 [9]).prog.length := by decide
theorem witness_StepPriority_opcode : (boot 0 0 0 0 [8, 7]).AtPair 8 7 ∧ 7 < (8 : Cell).toNat := by decide
theorem witness_StepPriority_operand :
    (boot 0 0 0 0 [7, 7]).Ready ∧ (boot 0 0 0 0 [7, 7]).AtPair 7 7 ∧ comboOpcode 7 ∧ 7 ≤ (7 : Cell).toNat := by
  decide
theorem witness_HaltedExactlyPastEnd : (boot 1 2 3 0 []).Ready ∧ (boot 1 2 3 0 [3]).Ready := by decide
theorem witness_LatchedFaultRepeatsForever :
    (State.Running { boot 1 2 3 0 [0, 7] with flt := some .decodeOperand }) := by decide
theorem witness_StepNeedsLoadAndReset_states :
    State.reset.loaded = false ∧
      ({ boot 0 0 0 0 [] with resetDone := false } : State).loaded = true ∧
      ({ boot 0 0 0 0 [] with resetDone := false } : State).resetDone = false := by decide
theorem witness_load_answers_next : ∃ t, hostLoad 3 [5#3, 4#3] State.reset = .next t := ⟨_, rfl⟩
/-- The fetch clause of the eight instruction rules: an opcode 0 to 7 in the last cell. -/
theorem witness_instruction_rules_fetch :
    ∀ op ∈ ([0, 1, 2, 3, 4, 5, 6, 7] : List Cell), (boot 0 0 0 0 [op]).Ready ∧
      (boot 0 0 0 0 [op]).prog[(boot 0 0 0 0 [op]).pc.toNat]? = some op ∧
      (boot 0 0 0 0 [op]).prog.length ≤ (boot 0 0 0 0 [op]).pc.toNat + 1 :=
  fun _ _ => ⟨⟨⟨rfl, rfl⟩, rfl⟩, rfl, Nat.le_refl 1⟩
/-- The result clause of the five combo rules, at both ends of the operand's range. -/
theorem witness_combo_rules_value :
    combo (boot 1 2 3 0 []) 0 = some 0 ∧ combo (boot 1 2 3 0 []) 6 = some 3 := by decide
/-- The fault clause of the five combo rules. -/
theorem witness_combo_rules_fault : 7 ≤ (7 : Cell).toNat ∧ 7 ≤ (-1 : Cell).toNat := by decide
theorem witness_JnzRule : (boot 1 0 0 0 []).a ≠ 0 ∧ (boot 0 0 0 0 []).a = 0 := by decide
theorem witness_ComboDecoderValues :
    (3 : Cell).toNat ≤ 3 ∧ 7 ≤ (7 : Cell).toNat ∧
      ∀ r, readReg (boot 1 2 3 0 []) r = readReg (boot 1 2 3 9 [5]) r := by
  refine ⟨by decide, by decide, fun r => ?_⟩
  cases r <;> rfl
theorem witness_ShiftOf64OrMoreGivesZero : combo (boot (-1) 64 0 0 []) 5 = some 64 ∧ 64 ≤ (64 : Word).toNat := by
  decide
theorem witness_QuotientNeverExceedsDividend : (6 : Cell).toNat ≤ 6 := by decide
theorem witness_RegisterUseTable_writes :
    (∃ t, exec (.adv 1) (boot 8 2 3 0 []) = .next t) ∧ (Instr.adv 1).writes ≠ some .b := ⟨⟨_, rfl⟩, by decide⟩
theorem witness_RegisterUseTable_reads :
    (Instr.bst 4).comboLegal = true ∧
      (∀ r ∈ (Instr.bst 4).reads, readReg (boot 8 2 3 0 []) r = readReg (boot 8 7 7 0 []) r) ∧
      (∃ t, exec (.bst 4) (boot 8 2 3 0 []) = .next t) ∧ ∃ t, exec (.bst 4) (boot 8 7 7 0 []) = .next t :=
  ⟨by decide, by decide, ⟨_, rfl⟩, ⟨_, rfl⟩⟩
theorem witness_OnlyOutEmits : (Instr.out 6).comboLegal = true ∧ (Instr.jnz 7).comboLegal = true := by decide
theorem witness_FaultsByInstruction :
    (boot 0 0 0 0 []).flt = none ∧ (Instr.adv 7).comboLegal = false ∧ (Instr.bxc 7).comboLegal = true := by decide
theorem witness_FaultChangesOnlyTheLatch :
    (boot 1 2 3 0 [8, 0]).flt = none ∧
      ∃ t, step (boot 1 2 3 0 [8, 0]) = .next t ∧ t.flt = some .decodeOpcode := ⟨rfl, _, rfl, rfl⟩
theorem witness_PcUpdateTable :
    (boot 1 0 0 0 [3, 7]).Ready ∧ (boot 1 0 0 0 [3, 7]).AtPair 3 7 ∧ (boot 1 0 0 0 [2, 7]).AtPair 2 7 := by decide
theorem witness_SequentialPcNeverWraps :
    (boot 1 0 0 0 [3, 7]).prog.length ≤ Config.maxProgLength ∧ (boot 1 0 0 0 [3, 7]).AtPair 3 7 := by decide
theorem witness_ProgramNeverChanges : ∃ t, step (boot 1 2 3 0 [5, 1]) = .next t := ⟨_, rfl⟩
theorem witness_ThreeBitCellsNeverFaultOnOpcode :
    Memory.wf 3 [7, 7] = true ∧ ∃ t,
      step { boot 1 2 3 0 [7, 7] with flt := some .decodeOpcode } = .next t ∧ t.flt = some .decodeOpcode :=
  ⟨by decide, _, rfl, rfl⟩
theorem witness_StepDependsOnlyOnTuple :
    (boot 10 0 0 0 [5, 4]).SameMachine { boot 10 0 0 0 [5, 4] with out := [3], report := some .cont } ∧
      ∃ t, step (boot 10 0 0 0 [5, 4]) = .next t := ⟨⟨rfl, rfl, rfl, rfl, rfl, rfl, rfl, rfl⟩, _, rfl⟩
/-- A machine in the middle of a run has the invariant and steps. -/
theorem witness_InvariantKeptByStep :
    (boot 10 0 0 2 [5, 0, 3, 7]).Inv 3 ∧ ∃ t, step (boot 10 0 0 2 [5, 0, 3, 7]) = .next t := by
  refine ⟨⟨by decide, by decide, ⟨nofun, nofun, nofun⟩, ⟨?_, nofun, nofun⟩⟩, _, rfl⟩
  intro cause
  exact ⟨nofun, nofun⟩
theorem witness_LoadEffect_long :
    Config.legalCellBits 3 ∧ Config.maxProgLength < (List.replicate (2 ^ 64 - 1) (0#3)).length := by
  refine ⟨by decide, ?_⟩
  rw [List.length_replicate]
  decide
theorem witness_LoadEffect_width : ¬ Config.legalCellBits 2 ∧ ¬ Config.legalCellBits 65 := by decide
theorem witness_FaultLatchCodes :
    (boot 0 0 0 0 []).flt = none ∧
      ({ boot 0 0 0 0 [] with flt := some .fetchOperand } : State).flt = some .fetchOperand := by decide
theorem witness_ResetErasesHistory :
    (boot 1 2 3 4 [5, 1]).prog = (boot 9 9 9 9 [5, 1]).prog ∧
      (boot 1 2 3 4 [5, 1]).loaded = (boot 9 9 9 9 [5, 1]).loaded := by decide
theorem witness_DoneRunIsStepsToHalt_and_RerunAfterDone :
    ∃ t o, hostRun 1 (boot 1 2 3 2 [5, 1]) = (.done o, t) := ⟨_, _, rfl⟩
theorem witness_AbortedRunKeepsStateBeforeFault :
    ∃ t, hostRun 1 (boot 1 2 3 0 [9]) = (.aborted .fetchOperand, t) := ⟨_, rfl⟩
theorem witness_MoreFuelSameResult : (hostRun 1 (boot 1 2 3 2 [5, 1])).1 ≠ .outOfFuel := by decide
theorem witness_JnzToItselfNeverEnds :
    (boot 1 0 0 2 [5, 0, 3, 2]).Ready ∧ (boot 1 0 0 2 [5, 0, 3, 2]).AtPair 3 2 ∧ (boot 1 0 0 2 []).a ≠ 0 := by
  decide
/-- The premises of IntendedProgramNeverAborts and IntendedProgramKeptByStep, at a jump. -/
theorem witness_IntendedProgram :
    IntendedProgram 3 [.out 6, .jnz 0] ∧ (boot 1 2 3 2 (assemble [.out 6, .jnz 0])).Ready ∧
      (boot 1 2 3 2 []).pc.toNat % 2 = 0 ∧
      ∃ t, step (boot 1 2 3 2 (assemble [.out 6, .jnz 0])) = .next t := by
  refine ⟨⟨by decide, fun v h => ?_⟩, by decide, by decide, ⟨_, rfl⟩⟩
  simp only [List.mem_cons, reduceCtorEq, List.not_mem_nil, or_false, false_or, Instr.jnz.injEq] at h
  subst h
  decide

end Sys2Proof.Tests
end

/-! ### 00_scope.md R10: a combo instruction that writes the register it reads -/

namespace Sys2Proof.Machine

/-- The divide family with an operand that has a value writes the mathematical quotient, the amount being the
operand's value before the write (00_scope.md R10, 41_divide.md R90). -/
theorem divideInto_of_combo {s : State} {v : Cell} {n : Word} (dst : Reg) (h : combo s v = some n) :
    divideInto dst v s = .next
      (setReport .cont (advance (writeReg dst (BitVec.ofNat 64 (s.a.toNat / 2 ^ n.toNat)) s))) := by
  rw [divideInto, withCombo_some h, readReg_a, shr64_eq, finish_eq]

/-- The low three bits of a word, as a register holds them (42_xor_mod.md R96, R98). -/
theorem zext64_mod8_eq (n : Word) : zext64 (mod8 n) = BitVec.ofNat 64 (n.toNat % 8) := by
  apply BitVec.eq_of_toNat_eq
  rw [zext64_toNat, mod8_toNat, BitVec.toNat_ofNat]
  omega

/-- `bst` with an operand that has a value writes that value mod 8 to B (42_xor_mod.md R96). -/
theorem execBst_of_combo {s : State} {v : Cell} {n : Word} (h : combo s v = some n) :
    execBst v s = .next (setReport .cont (advance (writeReg .b (BitVec.ofNat 64 (n.toNat % 8)) s))) := by
  rw [execBst, withCombo_some h, zext64_mod8_eq, finish_eq]

/-- The operands 4, 5 and 6 are the registers as they stand before the instruction (30_encoding.md R66). -/
theorem combo_four (s : State) : combo s 4 = some s.a := rfl
theorem combo_five (s : State) : combo s 5 = some s.b := rfl
theorem combo_six (s : State) : combo s 6 = some s.c := rfl

/-- Settles O21: each instruction's rule at the operand that selects its own destination; `adv 4` clears A
because a number is below two to itself (41_divide.md R91, corner cases). -/
theorem sameRegisterReadsOldValue : Obligations.SameRegisterReadsOldValue := by
  intro s
  refine ⟨?adv, ?bdv, ?cdv, ?bst⟩
  case adv =>
    have hadv := divideInto_of_combo .a (combo_four s)
    rwa [Nat.div_eq_of_lt Nat.lt_two_pow_self] at hadv
  case bdv => exact divideInto_of_combo .b (combo_five s)
  case cdv => exact divideInto_of_combo .c (combo_six s)
  case bst => exact execBst_of_combo (combo_five s)

/-! ### 00_scope.md R6: cause 1 needs an opcode cell above 7 -/

/-- An instruction leaves the fault latch or sets it to DecodeOperand (60_exceptions.md R112). -/
theorem exec_flt {i : Instr} {s t : State} (h : exec i s = .next t) :
    t.flt = s.flt ∨ t.flt = some .decodeOperand := by
  obtain ⟨-, e⟩ | ⟨-, u, e, ran⟩ := exec_cases i s
  · cases e.symm.trans h
    exact .inr rfl
  · cases e.symm.trans h
    exact .inl ran.flt

/-- For cells of any width: a step leaves DecodeOpcode latched only when it was latched before, or when the opcode
cell at the pointer is above 7 (30_encoding.md R70, 60_exceptions.md R111). -/
theorem step_decodeOpcode_cases {s t : State} (h : step s = .next t) (ht : t.flt = some .decodeOpcode) :
    s.flt = some .decodeOpcode ∨ ∃ op v, s.AtPair op v ∧ 7 < op.toNat := by
  obtain ⟨-, ⟨_, -, rfl⟩ | ⟨-, -, rfl⟩ | ⟨-, -, hfetch⟩ | ⟨-, op, v, hat, hop, -⟩ |
    ⟨-, op, v, i, -, -, hexec⟩⟩ := step_cases h
  · exact .inl ht
  · exact .inl ht
  · simp [hfetch] at ht
  · exact .inr ⟨op, v, hat, hop⟩
  · obtain hsame | hoperand := exec_flt hexec
    · exact .inl (hsame ▸ ht)
    · cases hoperand.symm.trans ht

/-- Settles O32: the opcode cell that DecodeOpcode needs has a value of 8 or more, and a cell of 3 bits has none. -/
theorem threeBitCellsNeverFaultOnOpcode : Obligations.ThreeBitCellsNeverFaultOnOpcode := by
  intro s t hwf h ht
  obtain hlatched | ⟨op, v, ⟨hop, -⟩, h7⟩ := step_decodeOpcode_cases h ht
  · exact hlatched
  · have hlt : op.toNat < 2 ^ 3 := Memory.lt_of_wf hwf hop
    omega

end Sys2Proof.Machine

/-! ### 10_state.md R25 and R27: the pointer -/

namespace Sys2Proof.Machine

/-- Settles O30: L leaves room above the pointer, so the sum stays below 2^64. -/
theorem sequentialPcNeverWraps : Obligations.SequentialPcNeverWraps := by
  intro s op v hlen hat
  have hlt : s.pc.toNat + 1 < s.prog.length := AtPair_lt hat
  have hmax : Config.maxProgLength = 18446744073709551614 := rfl
  have hsum : (s.pc + 2).toNat = s.pc.toNat + 2 := by
    have htwo : (2 : Word).toNat = 2 := rfl
    rw [BitVec.toNat_add_of_lt (by omega), htwo]
  omega

/-- A decoded instruction has the two cells as its opcode and operand (30_encoding.md R70). -/
theorem opcode_operand_of_decode {op v : Cell} {i : Instr} (h : decode op v = .instr i) :
    i.opcode = op ∧ i.operand = v := by
  obtain ⟨j, hj, hop, hv, -⟩ | ⟨hinvalid, -⟩ := decode_cases op v
  · cases hj.symm.trans h
    exact ⟨hop, hv⟩
  · cases hinvalid.symm.trans h

/-- Opcode 3 is `jnz` and nothing else (30_encoding.md R62). -/
theorem opcode_eq_three_iff (i : Instr) : i.opcode = 3 ↔ ∃ v, i = .jnz v := by
  cases i <;> simp [Instr.opcode]

/-- The pointer an instruction that runs leaves: the target of a taken jump, or the next pair (10_state.md R25). -/
theorem exec_pc {i : Instr} {s t : State} (hlegal : i.comboLegal = true) (h : exec i s = .next t) :
    t.pc = if i.opcode = 3 ∧ s.a ≠ 0 then i.operand else s.pc + 2 := by
  by_cases hjnz : ∃ v, i = .jnz v
  · obtain ⟨v, rfl⟩ := hjnz
    obtain ⟨ha, e⟩ | ⟨ha, e⟩ := execJnz_cases v s <;> cases e.symm.trans h
    · exact (if_pos ⟨rfl, ha⟩).symm
    · exact (if_neg fun hc => hc.2 ha).symm
  · rw [if_neg fun hc => hjnz ((opcode_eq_three_iff i).1 hc.1)]
    obtain ⟨hillegal, -⟩ | ⟨-, u, e, ran⟩ := exec_cases i s
    · cases hlegal.symm.trans hillegal
    · cases e.symm.trans h
      obtain hpc | ⟨v, hv, -⟩ := ran.pc
      · exact hpc
      · exact absurd ⟨v, hv⟩ hjnz

/-! ### 40_step_and_run.md R80: what a step answers, branch by branch -/

/-- A latched fault is reported again (40_step_and_run.md R83). -/
theorem step_of_latched {s : State} {cause : FaultCause} (hrun : s.Running) (hf : s.flt = some cause) :
    step s = .next (setReport (.fault cause) s) := by
  simp [step_of_running hrun, checkedStep, hf]

/-- At or past the end the step reports Halted (40_step_and_run.md R82). -/
theorem step_past_end {s : State} (h : s.Ready) (hle : s.prog.length ≤ s.pc.toNat) :
    step s = .next (setReport .halted s) := by
  simp [step_of_running h.1, checkedStep, h.2, hle]

/-- An opcode in the last cell has no operand to fetch (20_memory.md R47). -/
theorem step_missing_operand {s : State} (h : s.Ready) (hlast : s.pc.toNat + 1 = s.prog.length) :
    step s = .next (latch .fetchOperand s) := by
  have hpair : Memory.readPair s.prog s.pc.toNat = none := Memory.readPair_eq_none.2 hlast.ge
  simp [step_of_running h.1, checkedStep, h.2, fetchAndExecute, hpair,
    show ¬ s.prog.length ≤ s.pc.toNat by omega]

/-- An opcode above 7 raises DecodeOpcode (30_encoding.md R70). -/
theorem step_illegal_opcode {s : State} {op v : Cell} (h : s.Ready) (hat : s.AtPair op v) (hop : 7 < op.toNat) :
    step s = .next (latch .decodeOpcode s) := by
  obtain ⟨-, -, -, -, hle⟩ | ⟨hd, -⟩ := decode_cases op v
  · omega
  · rw [step_at h hat, hd]

/-- A step at two cells that decode runs their instruction (40_step_and_run.md R80). -/
theorem step_instr {s : State} {op v : Cell} {i : Instr} (h : s.Ready) (hat : s.AtPair op v)
    (hd : decode op v = .instr i) : step s = exec i s := by
  rw [step_at h hat, hd]

/-- Settles O29: a fault leaves the pointer, and an instruction that runs moves it as `exec_pc` says. -/
theorem pcUpdateTable : Obligations.PcUpdateTable := by
  intro s op v hready hat
  obtain ⟨i, hd, hop, hv, -⟩ | ⟨-, hop⟩ := decode_cases op v
  · rw [step_instr hready hat hd]
    obtain ⟨-, e⟩ | ⟨hlegal, t, e, ran⟩ := exec_cases i s
    · exact ⟨_, e, nofun, fun _ => rfl⟩
    · refine ⟨t, e, fun _ => ?_, fun hf => absurd (ran.flt.trans hready.2) hf⟩
      rw [exec_pc hlegal e, hop, hv]
  · exact ⟨_, step_illegal_opcode hready hat hop, nofun, fun _ => rfl⟩

/-! ### 10_state.md R29, R33: the invariant -/

/-- Without a latched fault there is nothing to diagnose. -/
theorem faultDiagnosed_of_flt_none {s : State} (h : s.flt = none) : s.FaultDiagnosed := by
  constructor <;> simp [h]

/-- An instruction whose combo operand is illegal shows it in its two cells (30_encoding.md R63, R66). -/
theorem comboOpcode_of_not_comboLegal {i : Instr} (h : i.comboLegal = false) :
    comboOpcode i.opcode ∧ 7 ≤ i.operand.toNat := by
  cases i with
  | adv v | bst v | out v | bdv v | cdv v =>
    exact ⟨by simp [Instr.opcode, comboOpcode], Nat.lt_of_not_le (of_decide_eq_false h)⟩
  | bxl v | jnz v | bxc v => cases h

/-- Repeating a latched fault is latching it once more (40_step_and_run.md R83). -/
theorem setReport_fault_eq_latch {s : State} {cause : FaultCause} (h : s.flt = some cause) :
    setReport (.fault cause) s = latch cause s := by
  simp [setReport, latch, ← h]

/-- A fault keeps the invariant when its cause is the one the cells at the pointer show: nothing but the latch and
the report changes (60_exceptions.md R113). -/
theorem Inv_latch {k : Nat} {s : State} {cause : FaultCause} (h : s.Inv k) (hd : (latch cause s).FaultDiagnosed) :
    (latch cause s).Inv k where
  memory := h.memory
  pointer := h.pointer
  diagnosed := hd
  reported := ⟨fun c => by simp, nofun, nofun⟩

/-- Reporting Halted at or past the end keeps the invariant (40_step_and_run.md R82). -/
theorem Inv_setReport_halted {k : Nat} {s : State} (h : s.Inv k) (hf : s.flt = none)
    (hle : s.prog.length ≤ s.pc.toNat) : (setReport .halted s).Inv k where
  memory := h.memory
  pointer := h.pointer
  diagnosed := faultDiagnosed_of_flt_none hf
  reported := ⟨fun c => by simp [hf], fun _ => hle, nofun⟩

/-- The report of an instruction that ran with no fault latched is true: Continue, or the value just emitted. -/
theorem Ran.reportTrue {i : Instr} {s t : State} (ran : Ran i s t) (hf : s.flt = none) : t.ReportTrue := by
  have hflt : t.flt = none := ran.flt.trans hf
  obtain ⟨hr, -⟩ | ⟨w, hr, ho⟩ := ran.report
  · constructor <;> simp [hr, hflt]
  · constructor <;> simp [hr, hflt, ho]

/-- An instruction fetched from well-formed memory leaves the pointer at most L, or a cell's value when a jump was
taken (10_state.md R25, R27). -/
theorem Ran.pointer {k : Nat} {i : Instr} {s t : State} {op v : Cell} (ran : Ran i s t)
    (hwf : Memory.wf k s.prog = true) (hat : s.AtPair op v) (hv : i.operand = v) :
    t.pc.toNat ≤ t.prog.length ∨ t.pc.toNat < 2 ^ k := by
  obtain hpc | ⟨w, rfl, -, hpc⟩ := ran.pc
  · obtain ⟨-, hle⟩ := sequentialPcNeverWraps s op v (Memory.wf_iff.1 hwf).1 hat
    exact .inl (by rwa [hpc, ran.prog])
  · have hw : w = v := hv
    exact .inr (by rw [hpc, hw]; exact Memory.lt_of_wf hwf hat.2)

/-- An instruction fetched with no fault latched keeps the invariant. -/
theorem Inv_exec {k : Nat} {s t : State} {op v : Cell} {i : Instr} (h : s.Inv k) (hf : s.flt = none)
    (hat : s.AtPair op v) (hd : decode op v = .instr i) (hexec : exec i s = .next t) : t.Inv k := by
  obtain ⟨hop, hv⟩ := opcode_operand_of_decode hd
  obtain ⟨hillegal, e⟩ | ⟨-, u, e, ran⟩ := exec_cases i s <;> cases e.symm.trans hexec
  · obtain ⟨hcombo, h7⟩ := comboOpcode_of_not_comboLegal hillegal
    exact Inv_latch h ⟨nofun, fun _ => ⟨op, v, hat, hop ▸ hcombo, hv ▸ h7⟩, nofun⟩
  · exact {
      memory := by rw [ran.prog]; exact h.memory
      pointer := ran.pointer h.memory hat hv
      diagnosed := faultDiagnosed_of_flt_none (ran.flt.trans hf)
      reported := ran.reportTrue hf }

/-- Settles O34: each branch of the step keeps the invariant. -/
theorem invariantKeptByStep : Obligations.InvariantKeptByStep := by
  intro k s t hinv h
  obtain ⟨-, ⟨cause, hf, rfl⟩ | ⟨hf, hle, rfl⟩ | ⟨-, hlast, rfl⟩ | ⟨-, op, v, hat, hop, rfl⟩ |
    ⟨hf, op, v, i, hat, hd, hexec⟩⟩ := step_cases h
  · rw [setReport_fault_eq_latch hf]
    have hsame : (latch cause s).flt = s.flt := hf.symm
    obtain ⟨hopcode, hoperand, hfetch⟩ := hinv.diagnosed
    exact Inv_latch hinv ⟨hsame ▸ hopcode, hsame ▸ hoperand, hsame ▸ hfetch⟩
  · exact Inv_setReport_halted hinv hf hle
  · exact Inv_latch hinv ⟨nofun, nofun, fun _ => hlast⟩
  · exact Inv_latch hinv ⟨fun _ => ⟨op, v, hat, hop⟩, nofun, nofun⟩
  · exact Inv_exec hinv hf hat hd hexec

/-- Settles O35: at reset there is no program, no fault and no report. -/
theorem invariantAtReset : Obligations.InvariantAtReset := fun k => {
  memory := Memory.wf_reset k
  pointer := .inl (Nat.le_refl 0)
  diagnosed := faultDiagnosed_of_flt_none rfl
  reported := ⟨fun _ => ⟨nofun, nofun⟩, nofun, nofun⟩ }

/-- Settles O39: `fltCode` at each value of the latch. -/
theorem faultLatchCodes : Obligations.FaultLatchCodes := fun _ =>
  ⟨⟨rfl, rfl, rfl, rfl⟩, congrArg fltCode, congrArg fltCode, congrArg fltCode, congrArg fltCode⟩

/-! ### 10_state.md R21: the registers an instruction writes and reads -/

/-- The divide family leaves every register but its destination. -/
theorem divideInto_frame {dst r : Reg} {v : Cell} {s t : State} (h : divideInto dst v s = .next t) (hr : r ≠ dst) :
    readReg t r = readReg s r := by
  obtain ⟨-, e⟩ | ⟨n, -, -, e⟩ := divideInto_cases dst v s <;> cases e.symm.trans h
  · simp
  · simp [readReg_writeReg, hr]

/-- An instruction leaves every register the table does not give as written (10_state.md R21). -/
theorem exec_frame {i : Instr} {s t : State} {r : Reg} (h : exec i s = .next t) (hr : i.writes ≠ some r) :
    readReg t r = readReg s r := by
  have hne : ∀ dst, i.writes = some dst → r ≠ dst := by
    rintro dst hdst rfl
    exact hr hdst
  cases i with
  | adv v => exact divideInto_frame h (hne _ rfl)
  | bdv v => exact divideInto_frame h (hne _ rfl)
  | cdv v => exact divideInto_frame h (hne _ rfl)
  | bst v =>
    obtain ⟨-, e⟩ | ⟨n, -, -, e⟩ := execBst_cases v s <;> cases e.symm.trans h
    · simp
    · simp [readReg_writeReg, hne _ rfl]
  | bxl v =>
    cases h
    simp [readReg_writeReg, hne _ rfl]
  | bxc v =>
    cases h
    simp [readReg_writeReg, hne _ rfl]
  | jnz v =>
    obtain ⟨-, e⟩ | ⟨-, e⟩ := execJnz_cases v s <;> cases e.symm.trans h <;> simp
  | out v =>
    obtain ⟨-, e⟩ | ⟨n, -, -, e⟩ := execOut_cases v s <;> cases e.symm.trans h <;> simp

/-- The operands 0 to 3 are themselves (30_encoding.md R66). -/
theorem combo_of_le_three (s : State) {v : Cell} (h : v.toNat ≤ 3) : combo s v = some v := by
  obtain ⟨-, e⟩ | ⟨rfl, -⟩ | ⟨rfl, -⟩ | ⟨rfl, -⟩ | ⟨h7, -⟩ := combo_cases s v
  · exact e
  · exact absurd h (by decide)
  · exact absurd h (by decide)
  · exact absurd h (by decide)
  · omega

/-- A combo operand that has a value has the same value in two states that agree on the register it selects
(30_encoding.md R66). -/
theorem combo_agree {s₁ s₂ : State} {v : Cell} (hv : v.toNat ≤ 6)
    (h : ∀ r ∈ (comboReg v).toList, readReg s₁ r = readReg s₂ r) :
    ∃ n, combo s₁ v = some n ∧ combo s₂ v = some n := by
  obtain ⟨hle, e₁⟩ | ⟨rfl, e₁⟩ | ⟨rfl, e₁⟩ | ⟨rfl, e₁⟩ | ⟨h7, -⟩ := combo_cases s₁ v
  · exact ⟨v, e₁, combo_of_le_three s₂ hle⟩
  · exact ⟨_, e₁, (combo_four s₂).trans (congrArg some (h .a (by decide)).symm)⟩
  · exact ⟨_, e₁, (combo_five s₂).trans (congrArg some (h .b (by decide)).symm)⟩
  · exact ⟨_, e₁, (combo_six s₂).trans (congrArg some (h .c (by decide)).symm)⟩
  · omega

/-- `out` with an operand that has a value emits that value mod 8 (44_output.md R105). -/
theorem execOut_of_combo {s : State} {v : Cell} {n : Word} (h : combo s v = some n) :
    execOut v s = .next (advance (emit (mod8 n) s)) := by
  rw [execOut, withCombo_some h]

/-- What the reads of `i` decide: the register it writes, its outcome, and where the pointer goes from one place
(10_state.md R21). -/
structure SameResult (i : Instr) (s₁ s₂ t₁ t₂ : State) : Prop where
  written : ∀ r, i.writes = some r → readReg t₁ r = readReg t₂ r
  report : t₁.report = t₂.report
  pc : s₁.pc = s₂.pc → t₁.pc = t₂.pc

/-- An instruction that writes one value to its register, in both states, and goes on. -/
theorem SameResult.of_write {i : Instr} {dst : Reg} (hdst : i.writes = some dst) (x : Word) (s₁ s₂ : State) :
    SameResult i s₁ s₂ (setReport .cont (advance (writeReg dst x s₁)))
      (setReport .cont (advance (writeReg dst x s₂))) where
  written r hr := by
    cases hdst.symm.trans hr
    simp [readReg_writeReg]
  report := rfl
  pc hpc := by simp [hpc]

/-- The divide family reads A and its combo operand, nothing else. -/
theorem divideInto_agree {i : Instr} {dst : Reg} {v : Cell} {s₁ s₂ : State} (hdst : i.writes = some dst)
    (hv : v.toNat ≤ 6) (h : ∀ r ∈ Reg.a :: (comboReg v).toList, readReg s₁ r = readReg s₂ r) :
    ∃ t₁ t₂, divideInto dst v s₁ = .next t₁ ∧ divideInto dst v s₂ = .next t₂ ∧ SameResult i s₁ s₂ t₁ t₂ := by
  obtain ⟨ha, hcombo⟩ := List.forall_mem_cons.1 h
  obtain ⟨n, e₁, e₂⟩ := combo_agree hv hcombo
  have ha : s₁.a = s₂.a := ha
  exact ⟨_, _, ha ▸ divideInto_of_combo dst e₁, divideInto_of_combo dst e₂, .of_write hdst _ s₁ s₂⟩

/-- Two states that agree on the registers an instruction reads give the same result (10_state.md R21). -/
theorem exec_agree {i : Instr} {s₁ s₂ : State} (hlegal : i.comboLegal = true)
    (h : ∀ r ∈ i.reads, readReg s₁ r = readReg s₂ r) :
    ∃ t₁ t₂, exec i s₁ = .next t₁ ∧ exec i s₂ = .next t₂ ∧ SameResult i s₁ s₂ t₁ t₂ := by
  cases i with
  | adv v => exact divideInto_agree rfl (of_decide_eq_true hlegal) h
  | bdv v => exact divideInto_agree rfl (of_decide_eq_true hlegal) h
  | cdv v => exact divideInto_agree rfl (of_decide_eq_true hlegal) h
  | bst v =>
    obtain ⟨n, e₁, e₂⟩ := combo_agree (of_decide_eq_true hlegal) h
    exact ⟨_, _, execBst_of_combo e₁, execBst_of_combo e₂, .of_write rfl _ s₁ s₂⟩
  | out v =>
    obtain ⟨n, e₁, e₂⟩ := combo_agree (of_decide_eq_true hlegal) h
    exact ⟨_, _, execOut_of_combo e₁, execOut_of_combo e₂, nofun, rfl, fun hpc => by simp [hpc]⟩
  | bxl v =>
    have hb : s₁.b = s₂.b := h .b (by simp [Instr.reads])
    exact ⟨_, _, rfl, rfl, by simpa [hb] using .of_write rfl _ s₁ s₂⟩
  | bxc v =>
    have hb : s₁.b = s₂.b := h .b (by simp [Instr.reads])
    have hc : s₁.c = s₂.c := h .c (by simp [Instr.reads])
    exact ⟨_, _, rfl, rfl, by simpa [hb, hc] using .of_write rfl _ s₁ s₂⟩
  | jnz v =>
    have ha : s₁.a = s₂.a := h .a (by simp [Instr.reads])
    obtain ⟨ha₁, e₁⟩ | ⟨ha₁, e₁⟩ := execJnz_cases v s₁ <;>
      obtain ⟨ha₂, e₂⟩ | ⟨ha₂, e₂⟩ := execJnz_cases v s₂
    · exact ⟨_, _, e₁, e₂, nofun, rfl, fun _ => rfl⟩
    · exact absurd (ha.trans ha₂) ha₁
    · exact absurd (ha.symm.trans ha₁) ha₂
    · exact ⟨_, _, e₁, e₂, nofun, rfl, fun hpc => by simp [hpc]⟩

/-- Settles O25: the write column is `exec_frame`, the read column `exec_agree`. -/
theorem registerUseTable : Obligations.RegisterUseTable := by
  refine ⟨fun i s t r => exec_frame, fun i s₁ s₂ t₁ t₂ hlegal hreads h₁ h₂ => ?_⟩
  obtain ⟨u₁, u₂, e₁, e₂, hsame⟩ := exec_agree hlegal hreads
  cases e₁.symm.trans h₁
  cases e₂.symm.trans h₂
  exact ⟨hsame.written, hsame.report, hsame.pc⟩

/-! ### 10_state.md R34: the step is a function of the tuple and the program -/

/-- One machine in two states, register by register. -/
theorem sameMachine_iff {s t : State} : s.SameMachine t ↔ (∀ r, readReg s r = readReg t r) ∧ s.pc = t.pc ∧
    s.flt = t.flt ∧ s.prog = t.prog ∧ s.loaded = t.loaded ∧ s.resetDone = t.resetDone := by
  constructor
  · rintro ⟨ha, hb, hc, hrest⟩
    refine ⟨fun r => ?_, hrest⟩
    cases r
    · exact ha
    · exact hb
    · exact hc
  · rintro ⟨hreg, hrest⟩
    exact ⟨hreg .a, hreg .b, hreg .c, hrest⟩

/-- Two states are left alike: one machine, one outcome, the same values added to OUT (10_state.md R34). -/
structure LeftAlike (s₁ s₂ t₁ t₂ : State) : Prop where
  same : t₁.SameMachine t₂
  report : t₁.report = t₂.report
  emitted : ∃ vs, t₁.out = s₁.out ++ vs ∧ t₂.out = s₂.out ++ vs

theorem LeftAlike.latch {s₁ s₂ : State} (h : s₁.SameMachine s₂) (cause : FaultCause) :
    LeftAlike s₁ s₂ (latch cause s₁) (latch cause s₂) where
  same := by
    obtain ⟨ha, hb, hc, hpc, -, hrest⟩ := h
    exact ⟨ha, hb, hc, hpc, rfl, hrest⟩
  report := rfl
  emitted := ⟨[], by simp⟩

theorem LeftAlike.setReport {s₁ s₂ : State} (h : s₁.SameMachine s₂) (x : Report) :
    LeftAlike s₁ s₂ (setReport x s₁) (setReport x s₂) where
  same := h
  report := rfl
  emitted := ⟨[], by simp⟩

/-- The outcome of an instruction that ran tells what it added to OUT (40_step_and_run.md R81). -/
theorem Ran.emitted_of_report_eq {i : Instr} {s₁ s₂ t₁ t₂ : State} (ran₁ : Ran i s₁ t₁) (ran₂ : Ran i s₂ t₂)
    (h : t₁.report = t₂.report) : ∃ vs, t₁.out = s₁.out ++ vs ∧ t₂.out = s₂.out ++ vs := by
  obtain ⟨hr₁, ho₁⟩ | ⟨w₁, hr₁, ho₁⟩ := ran₁.report <;>
    obtain ⟨hr₂, ho₂⟩ | ⟨w₂, hr₂, ho₂⟩ := ran₂.report <;> rw [hr₁, hr₂] at h <;> cases h
  · exact ⟨[], by simpa using ho₁, by simpa using ho₂⟩
  · exact ⟨[w₁], ho₁, ho₂⟩

/-- An instruction leaves alike two states of one machine: the registers it writes by `exec_agree`, the others by
`exec_frame`. -/
theorem exec_leftAlike {i : Instr} {s₁ s₂ t₁ : State} (h : s₁.SameMachine s₂) (h₁ : exec i s₁ = .next t₁) :
    ∃ t₂, exec i s₂ = .next t₂ ∧ LeftAlike s₁ s₂ t₁ t₂ := by
  obtain ⟨hillegal, e₁⟩ | ⟨hlegal, u₁, e₁, ran₁⟩ := exec_cases i s₁ <;> cases e₁.symm.trans h₁ <;>
    obtain ⟨hillegal₂, e₂⟩ | ⟨hlegal₂, t₂, e₂, ran₂⟩ := exec_cases i s₂
  · exact ⟨_, e₂, .latch h _⟩
  · cases hillegal.symm.trans hlegal₂
  · cases hlegal.symm.trans hillegal₂
  · obtain ⟨hreg, hpc, hflt, hprog, hloaded, hreset⟩ := sameMachine_iff.1 h
    obtain ⟨hwritten, hreport, hpc'⟩ := registerUseTable.2 i s₁ s₂ t₁ t₂ hlegal (fun r _ => hreg r) e₁ e₂
    refine ⟨t₂, e₂, sameMachine_iff.2 ⟨fun r => ?_, hpc' hpc, ?_, ?_, ?_, ?_⟩, hreport,
      ran₁.emitted_of_report_eq ran₂ hreport⟩
    · by_cases hr : i.writes = some r
      · exact hwritten r hr
      · rw [exec_frame e₁ hr, exec_frame e₂ hr, hreg r]
    · rw [ran₁.flt, ran₂.flt, hflt]
    · rw [ran₁.prog, ran₂.prog, hprog]
    · rw [ran₁.loaded, ran₂.loaded, hloaded]
    · rw [ran₁.resetDone, ran₂.resetDone, hreset]

/-- A step leaves alike two states of one machine: the second takes the branch the first takes. -/
theorem step_leftAlike {s₁ s₂ t₁ : State} (h : s₁.SameMachine s₂) (h₁ : step s₁ = .next t₁) :
    ∃ t₂, step s₂ = .next t₂ ∧ LeftAlike s₁ s₂ t₁ t₂ := by
  obtain ⟨-, hpc, hflt, hprog, hloaded, hreset⟩ := sameMachine_iff.1 h
  obtain ⟨hrun, hcases⟩ := step_cases h₁
  simp only [State.Running, State.AtPair, hpc, hflt, hprog, hloaded, hreset] at hrun hcases
  obtain ⟨cause, hf, rfl⟩ | ⟨hf, hle, rfl⟩ | ⟨hf, hlast, rfl⟩ | ⟨hf, op, v, hat, hop, rfl⟩ |
    ⟨hf, op, v, i, hat, hd, hexec⟩ := hcases
  · exact ⟨_, step_of_latched hrun hf, .setReport h _⟩
  · exact ⟨_, step_past_end ⟨hrun, hf⟩ hle, .setReport h _⟩
  · exact ⟨_, step_missing_operand ⟨hrun, hf⟩ hlast, .latch h _⟩
  · exact ⟨_, step_illegal_opcode ⟨hrun, hf⟩ hat hop, .latch h _⟩
  · rw [step_instr ⟨hrun, hf⟩ hat hd]
    exact exec_leftAlike h hexec

/-- Settles O33, by `step_leftAlike`. -/
theorem stepDependsOnlyOnTuple : Obligations.StepDependsOnlyOnTuple := by
  intro s₁ s₂ t₁ h h₁
  obtain ⟨t₂, h₂, halike⟩ := step_leftAlike h h₁
  exact ⟨t₂, h₂, halike.same, halike.report, halike.emitted⟩

end Sys2Proof.Machine

/-! ### 20_memory.md R46: Halted, and where it is reported -/

namespace Sys2Proof.Machine

/-- No instruction reports Halted: it faults, continues or emits (40_step_and_run.md R81). -/
theorem exec_report_ne_halted {i : Instr} {s t : State} (h : exec i s = .next t) : t.report ≠ some .halted := by
  obtain ⟨-, e⟩ | ⟨-, u, e, ran⟩ := exec_cases i s <;> cases e.symm.trans h
  · simp
  · obtain ⟨hr, -⟩ | ⟨w, hr, -⟩ := ran.report <;> simp [hr]

/-- A step that reports Halted began with no fault latched and the pointer at or past L: the other branches report
a fault or run an instruction (40_step_and_run.md R80, R82). -/
theorem past_end_of_step_halted {s t : State} (h : step s = .next t) (ht : t.report = some .halted) :
    s.flt = none ∧ s.prog.length ≤ s.pc.toNat := by
  obtain ⟨-, ⟨_, -, rfl⟩ | ⟨hf, hle, -⟩ | ⟨-, -, rfl⟩ | ⟨-, op, v, -, -, rfl⟩ |
    ⟨-, op, v, i, -, -, hexec⟩⟩ := step_cases h
  · simp at ht
  · exact ⟨hf, hle⟩
  · simp at ht
  · simp at ht
  · exact absurd ht (exec_report_ne_halted hexec)

/-- Settles O8: past the end the step is `step_past_end`, and a report of Halted is given nowhere else. -/
theorem haltedExactlyPastEnd : Obligations.HaltedExactlyPastEnd := by
  intro s hready
  constructor
  · exact step_past_end hready
  · intro h
    obtain ⟨-, hle⟩ := past_end_of_step_halted h rfl
    exact hle

/-! ### 20_memory.md R41: program memory is the load's alone -/

/-- No instruction writes program memory. -/
theorem exec_prog {i : Instr} {s t : State} (h : exec i s = .next t) : t.prog = s.prog := by
  obtain ⟨-, e⟩ | ⟨-, u, e, ran⟩ := exec_cases i s <;> cases e.symm.trans h
  · rfl
  · exact ran.prog

/-- No step writes program memory. -/
theorem step_prog {s t : State} (h : step s = .next t) : t.prog = s.prog := by
  obtain ⟨-, ⟨_, -, rfl⟩ | ⟨-, -, rfl⟩ | ⟨-, -, rfl⟩ | ⟨-, op, v, -, -, rfl⟩ |
    ⟨-, op, v, i, -, -, hexec⟩⟩ := step_cases h
  · rfl
  · rfl
  · rfl
  · rfl
  · exact exec_prog hexec

/-- No run writes program memory, however long. -/
theorem hostRun_prog (fuel : Nat) (s : State) : (hostRun fuel s).2.prog = s.prog :=
  hostRun_induct (fun s t => t.prog = s.prog) (fun _ => rfl)
    (fun _ _ _ hstep hrest => hrest.trans (step_prog hstep)) fuel s

/-- A load that succeeds makes the given cells the program (70_reset_and_hazards.md R131). -/
theorem hostLoad_prog {k : Nat} {cells : List (BitVec k)} {s t : State} (h : hostLoad k cells s = .next t) :
    t.prog = cells.map (BitVec.setWidth 64) := by
  obtain ⟨-, -, e⟩ | ⟨-, -, e⟩ | ⟨-, e⟩ := hostLoad_cases k cells s <;> cases e.symm.trans h
  rfl

/-- Settles O31: one lemma for each operation of the machine. -/
theorem programNeverChanges : Obligations.ProgramNeverChanges := by
  refine ⟨fun s t i h => ?_, hostRun_prog, hostReset_prog, fun k cells s t => hostLoad_prog⟩
  rw [step_prog h]
  exact ⟨rfl, rfl⟩

end Sys2Proof.Machine

/-! ### 30_encoding.md R67, R70: the decoder and the encoder are inverse -/

namespace Sys2Proof

/-- Every instruction is read back from its own two cells; one law for each constructor. -/
theorem decode_opcode_operand (i : Instr) : decode i.opcode i.operand = .instr i := by
  cases i with
  | adv v => exact Laws.RoundTrip.adv v
  | bxl v => exact Laws.RoundTrip.bxl v
  | bst v => exact Laws.RoundTrip.bst v
  | jnz v => exact Laws.RoundTrip.jnz v
  | bxc v => exact Laws.RoundTrip.bxc v
  | out v => exact Laws.RoundTrip.out v
  | bdv v => exact Laws.RoundTrip.bdv v
  | cdv v => exact Laws.RoundTrip.cdv v

theorem decode_eq_instr_iff {op v : Cell} {i : Instr} : decode op v = .instr i ↔ encode i = (op, v) := by
  constructor
  · intro h
    obtain ⟨rfl, rfl⟩ := Machine.opcode_operand_of_decode h
    rfl
  · intro h
    cases h
    exact decode_opcode_operand i

theorem decode_eq_invalid_iff {op v : Cell} {cause : FaultCause} :
    decode op v = .invalid cause ↔ cause = .decodeOpcode ∧ 7 < op.toNat := by
  obtain ⟨i, hd, -, -, hle⟩ | ⟨hd, hop⟩ := decode_cases op v <;> rw [hd]
  · exact ⟨nofun, fun ⟨_, hlt⟩ => by omega⟩
  · simp [hop, eq_comm]

/-- Settles O2: one direction of the decoder's answers in each lemma. -/
theorem decodeAcceptsExactlyEncodings : Obligations.DecodeAcceptsExactlyEncodings :=
  ⟨fun _ _ _ => decode_eq_instr_iff, fun _ _ _ => decode_eq_invalid_iff⟩

/-- Settles O1: each pair is the encoding of its instruction, and 8 is above the last opcode. -/
theorem decodeReadsSpecCells : Obligations.DecodeReadsSpecCells :=
  ⟨decode_eq_instr_iff.2 rfl, decode_eq_instr_iff.2 rfl, decode_eq_instr_iff.2 rfl, decode_eq_instr_iff.2 rfl,
    decode_eq_instr_iff.2 rfl, decode_eq_instr_iff.2 rfl, decode_eq_instr_iff.2 rfl, decode_eq_instr_iff.2 rfl,
    decode_eq_invalid_iff.2 ⟨rfl, by decide⟩⟩

/-! ### 30_encoding.md R61, R73: an assembled program in cells of `k` bits -/

theorem Instr.operandFits_iff {k : Nat} {i : Instr} : i.operandFits k = true ↔ i.operand.toNat < 2 ^ k := by
  simp [Instr.operandFits]

/-- An opcode fits every legal cell (00_scope.md R6, 30_encoding.md R62). -/
theorem Instr.opcode_lt_two_pow {k : Nat} (hk : 3 ≤ k) (i : Instr) : i.opcode.toNat < 2 ^ k :=
  calc i.opcode.toNat ≤ 7 := i.opcode_le
    _ < 2 ^ 3 := by decide
    _ ≤ 2 ^ k := Nat.pow_le_pow_right (by decide) hk

/-- Every cell of a program whose operands fit `k` bits has a value of `k` bits. -/
theorem lt_two_pow_of_mem_assemble {k : Nat} (hk : 3 ≤ k) {is : List Instr}
    (hfit : ∀ i ∈ is, i.operandFits k = true) : ∀ v ∈ assemble is, v.toNat < 2 ^ k := by
  induction is with
  | nil => simp
  | cons i is ih =>
    obtain ⟨hi, his⟩ := List.forall_mem_cons.1 hfit
    rw [assemble_cons, List.forall_mem_cons, List.forall_mem_cons]
    exact ⟨i.opcode_lt_two_pow hk, Instr.operandFits_iff.1 hi, ih his⟩

/-- A cell of at most `k` significant bits survives the way through a cell of `k` bits. -/
theorem setWidth_setWidth_of_lt {k : Nat} {v : Cell} (h : v.toNat < 2 ^ k) :
    BitVec.setWidth 64 (BitVec.setWidth k v) = v := by
  apply BitVec.eq_of_toNat_eq
  rw [BitVec.toNat_setWidth, BitVec.toNat_setWidth, Nat.mod_eq_of_lt h, Nat.mod_eq_of_lt v.isLt]

/-- What a load stores of the `k`-bit cells of a program is the assembled program itself (notes/assumptions/7.md). -/
theorem map_setWidth_encodeFor {k : Nat} (hk : 3 ≤ k) {is : List Instr}
    (hfit : ∀ i ∈ is, i.operandFits k = true) : (encodeFor k is).map (BitVec.setWidth 64) = assemble is := by
  have hcell : ∀ v ∈ assemble is, BitVec.setWidth 64 (BitVec.setWidth k v) = id v := fun v hv =>
    setWidth_setWidth_of_lt (lt_two_pow_of_mem_assemble hk hfit v hv)
  rw [encodeFor, List.map_map]
  exact (List.map_congr_left hcell).trans (List.map_id _)

/-- Line `n` stands at index `2n` (30_encoding.md R60, R73). -/
theorem readPair_assemble (is : List Instr) (n : Nat) (h : n < is.length) :
    Machine.Memory.readPair (assemble is) (2 * n) = some (encode is[n]) := by
  induction is generalizing n with
  | nil => cases h
  | cons i is ih =>
    cases n with
    | zero => rfl
    | succ n => exact ih n (Nat.lt_of_succ_lt_succ h)

/-- Settles O3: the load stores the assembled cells, whose pair at `2n` is the encoding of line `n`. -/
theorem loadedAssemblyDecodesBack : Obligations.LoadedAssemblyDecodesBack := by
  intro k is s hk hfit hlen
  have hcells : (encodeFor k is).length ≤ Config.maxProgLength := by simpa [encodeFor] using hlen
  obtain ⟨-, -, hload⟩ | ⟨-, hlong, -⟩ | ⟨hwidth, -⟩ := Machine.hostLoad_cases k (encodeFor k is) s
  · have hprog := (Machine.hostLoad_prog hload).trans (map_setWidth_encodeFor hk.1 hfit)
    refine ⟨_, hload, by rw [hprog, assemble_length], fun n hn => ?_⟩
    rw [hprog]
    exact ⟨_, _, readPair_assemble is n hn, decode_opcode_operand is[n]⟩
  · omega
  · exact absurd hk hwidth

/-! ### 30_encoding.md R71: the packed words of the opcode table -/

/-- A word of the table decodes to the instruction whose two cells it stands for. -/
theorem decodeTableWord_eq_some_iff {nbits w : Nat} {i : Instr} :
    decodeTableWord nbits w = some i ↔ encode i = unpackWord nbits w := by
  rw [← decode_eq_instr_iff (op := (unpackWord nbits w).1) (v := (unpackWord nbits w).2), decodeTableWord]
  cases decode (unpackWord nbits w).1 (unpackWord nbits w).2 <;> simp

theorem decodeTableWord_eq_none_iff {nbits w : Nat} :
    decodeTableWord nbits w = none ↔ 7 < (unpackWord nbits w).1.toNat := by
  obtain ⟨i, hd, -, -, hle⟩ | ⟨hd, hop⟩ := decode_cases (unpackWord nbits w).1 (unpackWord nbits w).2 <;>
    simp only [decodeTableWord, hd]
  · simp [hle]
  · simp [hop]

/-- The opcode cell of an 8-bit word is what stands above its low three bits. -/
theorem unpackWord_fst_toNat {w : Nat} (h : w < 256) : (unpackWord 8 w).1.toNat = w / 8 := by
  simp only [unpackWord, BitVec.toNat_ofNat]
  omega

/-- The operand cell of an 8-bit word is its low three bits. -/
theorem unpackWord_snd_toNat (w : Nat) : (unpackWord 8 w).2.toNat = w % 8 := by
  simp only [unpackWord, BitVec.toNat_ofNat]
  omega

/-- A packed instruction with a 3-bit operand has six bits. -/
theorem packWord_lt {i : Instr} (h : i.operandFits 3 = true) : packWord i < 64 := by
  have hop := i.opcode_le
  have hv : i.operand.toNat < 2 ^ 3 := Instr.operandFits_iff.1 h
  unfold packWord
  omega

/-- Unpacking gives back the two cells that were packed. -/
theorem unpackWord_packWord {i : Instr} (h : i.operandFits 3 = true) : unpackWord 8 (packWord i) = encode i := by
  have hlt := packWord_lt h
  have hv : i.operand.toNat < 2 ^ 3 := Instr.operandFits_iff.1 h
  refine Prod.ext (BitVec.eq_of_toNat_eq ?_) (BitVec.eq_of_toNat_eq ?_)
  · rw [unpackWord_fst_toNat (by omega), encode_fst]
    unfold packWord
    omega
  · rw [unpackWord_snd_toNat, encode_snd]
    unfold packWord
    omega

/-- Packing the cells of a word gives back the word. -/
theorem packWord_of_encode {i : Instr} {w : Nat} (hw : w < 256) (h : encode i = unpackWord 8 w) :
    packWord i = w := by
  rw [packWord, ← encode_fst, ← encode_snd, h, unpackWord_fst_toNat hw, unpackWord_snd_toNat]
  omega

/-- Settles O4: packing and unpacking are inverse, and the opcode of a word is legal exactly below 64. -/
theorem packedWordsDecode : Obligations.PackedWordsDecode := by
  refine ⟨fun i h => ?packed, fun w hw => ?below, fun w hlo hhi => ?above⟩
  case packed => exact ⟨packWord_lt h, decodeTableWord_eq_some_iff.2 (unpackWord_packWord h).symm⟩
  case below =>
    have hop := unpackWord_fst_toNat (w := w) (by omega)
    obtain ⟨i, hi⟩ : ∃ i, decodeTableWord 8 w = some i :=
      Option.ne_none_iff_exists'.1 fun hnone => by
        have := decodeTableWord_eq_none_iff.1 hnone
        omega
    exact ⟨i, hi, packWord_of_encode (by omega) (decodeTableWord_eq_some_iff.1 hi)⟩
  case above =>
    rw [decodeTableWord_eq_none_iff, unpackWord_fst_toNat hhi]
    omega

end Sys2Proof

/-! ### notes/assumptions/20.md: the state that stands for a load of one instruction -/

namespace Sys2Proof.Machine

/-- A step at the placed cells has a meaning. -/
theorem placeAtPc_ready (pair : Cell × Cell) (s : State) : (placeAtPc pair s).Ready := ⟨⟨rfl, rfl⟩, rfl⟩

/-- The placed cells are the two at the pointer, wherever the placing has put it. -/
theorem placeAtPc_atPair (pair : Cell × Cell) (s : State) : (placeAtPc pair s).AtPair pair.1 pair.2 :=
  Memory.readPair_eq_some.1 (Memory.readPair_placePair s.prog _ pair)

theorem readReg_placeAtPc (pair : Cell × Cell) (s : State) (r : Reg) :
    readReg (placeAtPc pair s) r = readReg s r := by
  cases r <;> rfl

/-- Settles O6: the step decodes the placed cells, and the placing writes no register. -/
theorem fetchWordRunsAsPlaced : Obligations.FetchWordRunsAsPlaced := by
  intro s nbits w i hword
  have hdecode := decode_eq_instr_iff.2 (decodeTableWord_eq_some_iff.1 hword)
  exact ⟨step_instr (placeAtPc_ready _ s) (placeAtPc_atPair _ s) hdecode, readReg_placeAtPc _ s, rfl, rfl⟩

/-! ### 30_encoding.md R66: the combo decoder -/

/-- The combo decoder reads the registers and nothing else. -/
theorem combo_congr {s t : State} (h : ∀ r, readReg s r = readReg t r) (v : Cell) : combo s v = combo t v := by
  by_cases hv : v.toNat ≤ 6
  · obtain ⟨n, hs, ht⟩ := combo_agree hv fun r _ => h r
    rw [hs, ht]
  · rw [(combo_eq_none_iff s v).2 (by omega), (combo_eq_none_iff t v).2 (by omega)]

/-- Settles O20: the value of each operand, and `combo_congr`. -/
theorem comboDecoderValues : Obligations.ComboDecoderValues :=
  ⟨fun s _ => combo_of_le_three s, fun s => ⟨combo_four s, combo_five s, combo_six s⟩,
    fun s v => (combo_eq_none_iff s v).2, fun _ _ v h => combo_congr h v⟩

end Sys2Proof.Machine

/-! ### 40_step_and_run.md R80, R84: a step always answers -/

namespace Sys2Proof.Machine

/-- Settles O5, by `step_instr`. -/
theorem stepRunsDecodedInstruction : Obligations.StepRunsDecodedInstruction := fun _ _ _ _ => step_instr

/-- A step that has a meaning answers a next state, whatever the latch, the pointer and the cells: each branch of
R80 has an outcome (40_step_and_run.md R84). -/
theorem step_next {s : State} (hrun : s.Running) : ∃ t, step s = .next t := by
  cases hf : s.flt with
  | some cause => exact ⟨_, step_of_latched hrun hf⟩
  | none =>
    have hready : s.Ready := ⟨hrun, hf⟩
    by_cases hle : s.prog.length ≤ s.pc.toNat
    · exact ⟨_, step_past_end hready hle⟩
    · cases hpair : Memory.readPair s.prog s.pc.toNat with
      | none =>
        have hshort := Memory.readPair_eq_none.1 hpair
        exact ⟨_, step_missing_operand hready (by omega)⟩
      | some pair =>
        have hat : s.AtPair pair.1 pair.2 := Memory.readPair_eq_some.1 hpair
        obtain ⟨i, hd, -⟩ | ⟨-, hop⟩ := decode_cases pair.1 pair.2
        · rw [step_instr hready hat hd]
          exact exec_next i s
        · exact ⟨_, step_illegal_opcode hready hat hop⟩

/-- Settles O11: a step that answers was running by `step_cases`, and one that is running answers by `step_next`. -/
theorem stepAnswersExactlyWhenRunning : Obligations.StepAnswersExactlyWhenRunning := fun _ =>
  ⟨fun ⟨_, h⟩ => (step_cases h).1, step_next⟩

/-! ### 40_step_and_run.md R83: a latched fault stays -/

/-- Settles O9, by induction on the number of steps: the state after the first is latched as the first was, and
reporting a cause twice is reporting it once. -/
theorem latchedFaultRepeatsForever : Obligations.LatchedFaultRepeatsForever := by
  intro s cause n hrun hf
  induction n generalizing s with
  | zero => exact steps_succ (step_of_latched hrun hf)
  | succ n ih => exact (steps_succ (step_of_latched hrun hf)).trans (ih (setReport (.fault cause) s) hrun hf)

/-! ### 40_step_and_run.md R81: the outcome of an instruction -/

/-- The divide family with a legal operand ends in Continue and emits nothing. -/
theorem divideInto_cont (dst : Reg) {v : Cell} (s : State) (hv : v.toNat ≤ 6) :
    ∃ u, divideInto dst v s = .next (setReport .cont u) ∧ u.out = s.out := by
  obtain ⟨n, hn⟩ := (combo_isSome_iff s v).2 hv
  exact ⟨_, divideInto_of_combo dst hn, by simp⟩

/-- A legal instruction other than `out` ends in Continue and emits nothing, a taken jump included
(40_step_and_run.md R81). -/
theorem exec_cont_of_ne_out {i : Instr} (s : State) (hlegal : i.comboLegal = true) (hout : ∀ v, i ≠ .out v) :
    ∃ u, exec i s = .next (setReport .cont u) ∧ u.out = s.out := by
  cases i with
  | adv v => exact divideInto_cont .a s (of_decide_eq_true hlegal)
  | bdv v => exact divideInto_cont .b s (of_decide_eq_true hlegal)
  | cdv v => exact divideInto_cont .c s (of_decide_eq_true hlegal)
  | bst v =>
    obtain ⟨n, hn⟩ := (combo_isSome_iff s v).2 (of_decide_eq_true hlegal)
    exact ⟨_, execBst_of_combo hn, by simp⟩
  | bxl v => exact ⟨_, rfl, by simp⟩
  | bxc v => exact ⟨_, rfl, by simp⟩
  | jnz v =>
    obtain ⟨-, e⟩ | ⟨-, e⟩ := execJnz_cases v s
    · exact ⟨_, e, rfl⟩
    · exact ⟨_, e, rfl⟩
  | out v => exact absurd rfl (hout v)

/-- Settles O26: `out` emits by `execOut_of_combo`, the other seven continue by `exec_cont_of_ne_out`. -/
theorem onlyOutEmits : Obligations.OnlyOutEmits := by
  intro i s hlegal
  by_cases hout : ∃ v, i = .out v
  · obtain ⟨v, rfl⟩ := hout
    obtain ⟨n, hn⟩ := (combo_isSome_iff s v).2 (of_decide_eq_true hlegal)
    exact ⟨_, execOut_of_combo hn, .inl ⟨v, mod8 n, rfl, rfl, rfl⟩⟩
  · have hne : ∀ v, i ≠ .out v := not_exists.1 hout
    obtain ⟨u, e, ho⟩ := exec_cont_of_ne_out s hlegal hne
    exact ⟨_, e, .inr ⟨hne, rfl, ho⟩⟩

/-! ### 40_step_and_run.md R86 to R89: how a run ends -/

/-- What the first step makes of a run, whatever fuel is left: it hands on to the rest, or ends the run by Halted, by
a fault, or by having no meaning (40_step_and_run.md R86, R88). -/
theorem hostRun_succ_cases (s : State) :
    (∃ t, step s = .next t ∧ ∀ fuel, hostRun (fuel + 1) s = hostRun fuel t) ∨
      (∃ t, step s = .next t ∧ t.report = some .halted ∧ ∀ fuel, hostRun (fuel + 1) s = (.done t.out, t)) ∨
      (∃ t cause, step s = .next t ∧ t.report = some (.fault cause) ∧
        ∀ fuel, hostRun (fuel + 1) s = (.aborted cause, t)) ∨
      ∃ why, ∀ fuel, hostRun (fuel + 1) s = (.refused why, s) := by
  cases h : step s with
  | fault why => cases why
  | refused why => exact .inr (.inr (.inr ⟨why, fun _ => hostRun_refused h⟩))
  | next t =>
    have hrun := fun fuel => hostRun_succ (fuel := fuel) h
    cases hr : t.report with
    | none => exact .inl ⟨t, rfl, by simpa [hr] using hrun⟩
    | some report =>
      cases report with
      | cont | output _ => exact .inl ⟨t, rfl, by simpa [hr] using hrun⟩
      | halted => exact .inr (.inl ⟨t, rfl, hr, by simpa [hr] using hrun⟩)
      | fault cause => exact .inr (.inr (.inl ⟨t, cause, rfl, hr, by simpa [hr] using hrun⟩))

/-- Settles O44, by induction on the fuel of the run that has ended. -/
theorem moreFuelSameResult : Obligations.MoreFuelSameResult := by
  intro n m s hended
  induction n generalizing s with
  | zero => exact absurd rfl hended
  | succ n ih =>
    rw [Nat.add_right_comm]
    obtain ⟨t, -, hrun⟩ | ⟨t, -, -, hrun⟩ | ⟨t, cause, -, -, hrun⟩ | ⟨why, hrun⟩ := hostRun_succ_cases s
    · rw [hrun] at hended
      rw [hrun, hrun, ih t hended]
    · rw [hrun, hrun]
    · rw [hrun, hrun]
    · rw [hrun, hrun]

/-- A run that has ended took steps to a state from which one step more ends it, with the same result. -/
theorem hostRun_last_step {fuel : Nat} {s : State} (hended : (hostRun fuel s).1 ≠ .outOfFuel) :
    ∃ n u, n < fuel ∧ steps n s = .next u ∧ hostRun 1 u = hostRun fuel s := by
  induction fuel generalizing s with
  | zero => exact absurd rfl hended
  | succ fuel ih =>
    have hfirst : hostRun 1 s = hostRun (fuel + 1) s →
        ∃ n u, n < fuel + 1 ∧ steps n s = .next u ∧ hostRun 1 u = hostRun (fuel + 1) s :=
      fun hone => ⟨0, s, Nat.succ_pos fuel, rfl, hone⟩
    obtain ⟨t, h, hrun⟩ | ⟨t, -, -, hrun⟩ | ⟨t, cause, -, -, hrun⟩ | ⟨why, hrun⟩ := hostRun_succ_cases s
    · rw [hrun] at hended ⊢
      obtain ⟨n, u, hn, hsteps, hlast⟩ := ih hended
      exact ⟨n + 1, u, Nat.succ_lt_succ hn, (steps_succ h).trans hsteps, hlast⟩
    · exact hfirst ((hrun 0).trans (hrun fuel).symm)
    · exact hfirst ((hrun 0).trans (hrun fuel).symm)
    · exact hfirst ((hrun 0).trans (hrun fuel).symm)

/-- The last step of a run that returns Done reported Halted. -/
theorem step_of_hostRun_one_done {u t : State} {o : List OutVal} (h : hostRun 1 u = (.done o, t)) :
    step u = .next t ∧ t.report = some .halted ∧ o = t.out := by
  obtain ⟨v, -, hrun⟩ | ⟨v, hstep, hr, hrun⟩ | ⟨v, cause, -, -, hrun⟩ | ⟨why, hrun⟩ := hostRun_succ_cases u <;>
    cases (hrun 0).symm.trans h
  exact ⟨hstep, hr, rfl⟩

/-- The last step of a run that aborts reported its cause. -/
theorem step_of_hostRun_one_aborted {u t : State} {cause : FaultCause} (h : hostRun 1 u = (.aborted cause, t)) :
    step u = .next t ∧ t.report = some (.fault cause) := by
  obtain ⟨v, -, hrun⟩ | ⟨v, -, -, hrun⟩ | ⟨v, c, hstep, hr, hrun⟩ | ⟨why, hrun⟩ := hostRun_succ_cases u <;>
    cases (hrun 0).symm.trans h
  exact ⟨hstep, hr⟩

/-- A step that reports Halted changes nothing but the report (40_step_and_run.md R82). -/
theorem eq_setReport_of_step_halted {s t : State} (h : step s = .next t) (ht : t.report = some .halted) :
    t = setReport .halted s := by
  obtain ⟨hf, hle⟩ := past_end_of_step_halted h ht
  cases (step_past_end ⟨(step_cases h).1, hf⟩ hle).symm.trans h
  rfl

/-- Settles O42: the last step of the run is one that reported Halted. -/
theorem doneRunIsStepsToHalt : Obligations.DoneRunIsStepsToHalt := by
  intro fuel s t o h
  obtain ⟨n, u, hn, hsteps, hlast⟩ := hostRun_last_step (fuel := fuel) (s := s) (by simp [h])
  obtain ⟨hstep, hr, rfl⟩ := step_of_hostRun_one_done (hlast.trans h)
  obtain ⟨hf, hle⟩ := past_end_of_step_halted hstep hr
  cases eq_setReport_of_step_halted hstep hr
  exact ⟨n, u, hn, hsteps, hf, hle, rfl, rfl⟩

/-! ### 60_exceptions.md R113: what a faulting step leaves -/

/-- An instruction that reports a fault has latched it and changed nothing else. -/
theorem eq_latch_of_exec_fault {i : Instr} {s t : State} {cause : FaultCause} (h : exec i s = .next t)
    (ht : t.report = some (.fault cause)) : t = latch cause s := by
  obtain ⟨-, e⟩ | ⟨-, u, e, ran⟩ := exec_cases i s <;> cases e.symm.trans h
  · cases ht
    rfl
  · obtain ⟨hr, -⟩ | ⟨w, hr, -⟩ := ran.report <;> cases hr.symm.trans ht

/-- A step that reports a fault, raised or repeated, leaves the state it began from with that cause latched
(40_step_and_run.md R83, 60_exceptions.md R113). -/
theorem eq_latch_of_step_fault {s t : State} {cause : FaultCause} (h : step s = .next t)
    (ht : t.report = some (.fault cause)) : t = latch cause s := by
  obtain ⟨-, ⟨c, hf, rfl⟩ | ⟨-, -, rfl⟩ | ⟨-, -, rfl⟩ | ⟨-, op, v, -, -, rfl⟩ |
    ⟨-, op, v, i, -, -, hexec⟩⟩ := step_cases h
  · cases ht
    exact setReport_fault_eq_latch hf
  · cases ht
  · cases ht
    rfl
  · cases ht
    rfl
  · exact eq_latch_of_exec_fault hexec ht

/-- Settles O43: the last step of the run is one that reported the cause. -/
theorem abortedRunKeepsStateBeforeFault : Obligations.AbortedRunKeepsStateBeforeFault := by
  intro fuel s t cause h
  obtain ⟨n, u, hn, hsteps, hlast⟩ := hostRun_last_step (fuel := fuel) (s := s) (by simp [h])
  obtain ⟨hstep, hr⟩ := step_of_hostRun_one_aborted (hlast.trans h)
  exact ⟨n, u, hn, hsteps, eq_latch_of_step_fault hstep hr⟩

end Sys2Proof.Machine

/-! ### 41_divide.md R90 to R94: the divide family -/

namespace Sys2Proof.Machine

/-- The divide family raises DecodeOperand for an operand of 7 or above, whatever its register (41_divide.md R91 to
R93, 60_exceptions.md R112). -/
theorem divideInto_of_ge_seven (dst : Reg) {v : Cell} (s : State) (h : 7 ≤ v.toNat) :
    divideInto dst v s = .next (latch .decodeOperand s) :=
  withCombo_none h _

/-- An opcode cell with nothing after it is the last of the program, and its step raises FetchOperand
(20_memory.md R47). -/
theorem step_opcode_in_last_cell {s : State} {op : Cell} (h : s.Ready) (hop : s.prog[s.pc.toNat]? = some op)
    (hend : s.prog.length ≤ s.pc.toNat + 1) : step s = .next (latch .fetchOperand s) := by
  obtain ⟨hlt, -⟩ := List.getElem?_eq_some_iff.1 hop
  exact step_missing_operand h (by omega)

/-- Settles O12: opcode 0 is `adv`, which is the divide family with register A. -/
theorem advRule : Obligations.AdvRule :=
  ⟨Laws.RoundTrip.adv, fun _ _ _ => divideInto_of_combo .a, fun s _ => divideInto_of_ge_seven .a s,
    fun _ => step_opcode_in_last_cell⟩

/-- Settles O13: opcode 6 is `bdv`, which is the divide family with register B. -/
theorem bdvRule : Obligations.BdvRule :=
  ⟨Laws.RoundTrip.bdv, fun _ _ _ => divideInto_of_combo .b, fun s _ => divideInto_of_ge_seven .b s,
    fun _ => step_opcode_in_last_cell⟩

/-- Settles O14: opcode 7 is `cdv`, which is the divide family with register C. -/
theorem cdvRule : Obligations.CdvRule :=
  ⟨Laws.RoundTrip.cdv, fun _ _ _ => divideInto_of_combo .c, fun s _ => divideInto_of_ge_seven .c s,
    fun _ => step_opcode_in_last_cell⟩

/-- The quotient of a word is not above it: `q <= A` (41_divide.md R90). -/
theorem shr64_le (a n : Word) : (shr64 a n).toNat ≤ a.toNat := by
  rw [shr64_toNat]
  exact Nat.div_le_self _ _

/-- With a legal operand the divide family answers a state whose destination is at most the old A. -/
theorem divideInto_le (dst : Reg) {v : Cell} (s : State) (hv : v.toNat ≤ 6) :
    ∃ t, divideInto dst v s = .next t ∧ (readReg t dst).toNat ≤ s.a.toNat := by
  obtain ⟨h7, -⟩ | ⟨n, -, -, e⟩ := divideInto_cases dst v s
  · omega
  · exact ⟨_, e, by simpa [readReg_writeReg] using shr64_le s.a n⟩

/-- Settles O23, by `divideInto_le` at each of the three registers. -/
theorem quotientNeverExceedsDividend : Obligations.QuotientNeverExceedsDividend := fun s _ hv =>
  ⟨divideInto_le .a s hv, divideInto_le .b s hv, divideInto_le .c s hv⟩

/-- A shift amount of 64 or more leaves no bit, the amount not being taken modulo 64 (41_divide.md R90, D9). -/
theorem divideInto_of_combo_ge_64 {s : State} {v : Cell} {n : Word} (dst : Reg) (h : combo s v = some n)
    (hn : 64 ≤ n.toNat) :
    divideInto dst v s = .next (setReport .cont (advance (writeReg dst 0#64 s))) := by
  have hquot : s.a.toNat / 2 ^ n.toNat = 0 :=
    Nat.div_eq_of_lt (lt_of_lt_of_le s.a.isLt (Nat.pow_le_pow_right (by decide) hn))
  rw [divideInto_of_combo dst h, hquot]

/-- Settles O22, by `divideInto_of_combo_ge_64` at each of the three registers. -/
theorem shiftOf64OrMoreGivesZero : Obligations.ShiftOf64OrMoreGivesZero := fun _ _ _ h hn =>
  ⟨divideInto_of_combo_ge_64 .a h hn, divideInto_of_combo_ge_64 .b h hn, divideInto_of_combo_ge_64 .c h hn⟩

end Sys2Proof.Machine

/-! ### 42_xor_mod.md R95 to R98: the instructions that write B -/

namespace Sys2Proof.Machine

/-- `bst` raises DecodeOperand for an operand of 7 or above, before it writes B (42_xor_mod.md R96, 60_exceptions.md
R112). -/
theorem execBst_of_ge_seven {v : Cell} (s : State) (h : 7 ≤ v.toNat) :
    execBst v s = .next (latch .decodeOperand s) :=
  withCombo_none h _

/-- Settles O16: opcode 2 is `bst`, whose value is `execBst_of_combo`'s. -/
theorem bstRule : Obligations.BstRule :=
  ⟨Laws.RoundTrip.bst, fun _ _ _ => execBst_of_combo, fun s _ => execBst_of_ge_seven s,
    fun _ => step_opcode_in_last_cell⟩

/-- What `bxl` and `bxc` share: the state after a completed exclusive-or of `x` into B (42_xor_mod.md R95, R97). -/
def xorIntoB (x : Word) (s : State) : State :=
  setReport .cont (advance (writeReg .b (s.b ^^^ x) s))

/-- `bxl` combines the literal itself, any value (42_xor_mod.md R95, D3). -/
theorem exec_bxl (s : State) (v : Cell) : exec (.bxl v) s = .next (xorIntoB v s) := rfl

/-- `bxc` combines C, whatever its operand cell holds (42_xor_mod.md R97, D14). -/
theorem exec_bxc (s : State) (v : Cell) : exec (.bxc v) s = .next (xorIntoB s.c s) := rfl

/-- Settles O15: opcode 1 is `bxl`, which combines its literal into B. -/
theorem bxlRule : Obligations.BxlRule :=
  ⟨Laws.RoundTrip.bxl, exec_bxl, fun _ => step_opcode_in_last_cell⟩

/-- Settles O17: opcode 4 is `bxc`, which combines C into B. -/
theorem bxcRule : Obligations.BxcRule :=
  ⟨Laws.RoundTrip.bxc, exec_bxc, fun _ => step_opcode_in_last_cell⟩

@[simp] theorem xorIntoB_c (x : Word) (s : State) : (xorIntoB x s).c = s.c := rfl

theorem readReg_xorIntoB (x : Word) (s : State) (r : Reg) :
    readReg (xorIntoB x s) r = if r = .b then s.b ^^^ x else readReg s r := by
  rw [xorIntoB, readReg_setReport, readReg_advance, readReg_writeReg]

/-- The exclusive-or with one value is its own inverse, and A and C are not written (42_xor_mod.md R95, R97, corner
cases). -/
theorem readReg_xorIntoB_xorIntoB (x : Word) (s : State) (r : Reg) :
    readReg (xorIntoB x (xorIntoB x s)) r = readReg s r := by
  have hb : (xorIntoB x s).b = s.b ^^^ x := readReg_xorIntoB x s .b
  rw [readReg_xorIntoB, readReg_xorIntoB, hb]
  split
  case isTrue h =>
    subst h
    rw [BitVec.xor_assoc, BitVec.xor_self, BitVec.xor_zero, readReg_b]
  case isFalse => rfl

/-- Settles O24: the second application combines the same value, for `bxc` because the first leaves C. -/
theorem xorTwiceRestoresB : Obligations.XorTwiceRestoresB := by
  intro s v w
  refine ⟨⟨_, _, exec_bxl s v, exec_bxl _ v, readReg_xorIntoB_xorIntoB v s⟩,
    ⟨_, _, exec_bxc s v, exec_bxc _ w, fun r => ?_⟩⟩
  rw [xorIntoB_c]
  exact readReg_xorIntoB_xorIntoB s.c s r

end Sys2Proof.Machine

/-! ### 43_jump.md R100: jnz -/

namespace Sys2Proof.Machine

/-- With A not zero, `jnz` goes to the literal itself, any value (43_jump.md R100, D3). -/
theorem execJnz_taken {s : State} (v : Cell) (ha : s.a ≠ 0) :
    execJnz v s = .next (setReport .cont (setPc v s)) := by
  obtain ⟨-, e⟩ | ⟨hzero, -⟩ := execJnz_cases v s
  · exact e
  · exact absurd hzero ha

/-- With A zero, `jnz` goes on to the next pair, whatever its operand (43_jump.md R100, D14). -/
theorem execJnz_not_taken {s : State} (v : Cell) (ha : s.a = 0) :
    execJnz v s = .next (setReport .cont (advance s)) := by
  obtain ⟨hnonzero, -⟩ | ⟨-, e⟩ := execJnz_cases v s
  · exact absurd ha hnonzero
  · exact e

/-- Settles O18: opcode 3 is `jnz`, whose two branches are `execJnz_taken` and `execJnz_not_taken`. -/
theorem jnzRule : Obligations.JnzRule :=
  ⟨Laws.RoundTrip.jnz, fun _ => execJnz_taken, fun _ => execJnz_not_taken, fun _ => step_opcode_in_last_cell⟩

/-- Writing the pointer with its own value changes nothing. -/
theorem setPc_self (s : State) : setPc s.pc s = s := rfl

/-- A taken jump to its own index changes nothing but the report (43_jump.md R100, corner cases). -/
theorem step_jnz_self {s : State} (h : s.Ready) (hat : s.AtPair 3 s.pc) (ha : s.a ≠ 0) :
    step s = .next (setReport .cont s) :=
  calc step s
    _ = exec (.jnz s.pc) s := step_instr h hat (Laws.RoundTrip.jnz s.pc)
    _ = .next (setReport .cont (setPc s.pc s)) := execJnz_taken s.pc ha
    _ = .next (setReport .cont s) := by rw [setPc_self]

/-- A run of one step or more at such a jump uses up its fuel and changes nothing but the report: the state after a
step is at the same jump again (40_step_and_run.md R87). -/
theorem hostRun_jnz_self {s : State} (fuel : Nat) (h : s.Ready) (hat : s.AtPair 3 s.pc) (ha : s.a ≠ 0) :
    hostRun (fuel + 1) s = (.outOfFuel, setReport .cont s) := by
  induction fuel generalizing s with
  | zero => exact hostRun_succ (step_jnz_self h hat ha)
  | succ fuel ih =>
    have hfirst : hostRun (fuel + 1 + 1) s = hostRun (fuel + 1) (setReport .cont s) :=
      hostRun_succ (step_jnz_self h hat ha)
    exact hfirst.trans (ih (s := setReport .cont s) h hat ha)

/-- Settles O46: with no fuel the run is the state itself, and otherwise `hostRun_jnz_self` says what it leaves. -/
theorem jnzToItselfNeverEnds : Obligations.JnzToItselfNeverEnds := by
  intro s fuel h hat ha
  cases fuel with
  | zero => exact ⟨rfl, rfl, rfl⟩
  | succ fuel =>
    rw [hostRun_jnz_self fuel h hat ha]
    exact ⟨rfl, rfl, rfl⟩

end Sys2Proof.Machine

/-! ### 44_output.md R105 and R106: out, and the output over a run -/

namespace Sys2Proof.Machine

/-- The emitted value of three bits, as the spec writes it (44_output.md R105, 42_xor_mod.md R98). -/
theorem mod8_eq (n : Word) : mod8 n = BitVec.ofNat 3 (n.toNat % 8) := by
  apply BitVec.eq_of_toNat_eq
  rw [mod8_toNat, BitVec.toNat_ofNat]
  omega

/-- `out` raises DecodeOperand for an operand of 7 or above, before it emits anything (44_output.md R105,
60_exceptions.md R112). -/
theorem execOut_of_ge_seven {v : Cell} (s : State) (h : 7 ≤ v.toNat) :
    execOut v s = .next (latch .decodeOperand s) :=
  withCombo_none h _

/-- Settles O19: opcode 5 is `out`, whose emitted value `execOut_of_combo` gives as `mod8`. -/
theorem outRule : Obligations.OutRule := by
  refine ⟨Laws.RoundTrip.out, fun s v n hn => ?_, fun s _ => execOut_of_ge_seven s,
    fun _ => step_opcode_in_last_cell⟩
  rw [← mod8_eq]
  exact execOut_of_combo hn

/-- An instruction leaves OUT or adds one value at its end (44_output.md R106). -/
theorem exec_out_prefix {i : Instr} {s t : State} (h : exec i s = .next t) : s.out <+: t.out := by
  obtain ⟨-, e⟩ | ⟨-, u, e, ran⟩ := exec_cases i s <;> cases e.symm.trans h
  · exact List.prefix_rfl
  · obtain ⟨-, hsame⟩ | ⟨w, -, hadded⟩ := ran.report
    · rw [hsame]
    · rw [hadded]
      exact List.prefix_append s.out [w]

/-- A step changes OUT by its instruction alone: one that faults or halts emits nothing (40_step_and_run.md R80). -/
theorem step_out_prefix {s t : State} (h : step s = .next t) : s.out <+: t.out := by
  obtain ⟨-, ⟨_, -, rfl⟩ | ⟨-, -, rfl⟩ | ⟨-, -, rfl⟩ | ⟨-, op, v, -, -, rfl⟩ |
    ⟨-, op, v, i, -, -, hexec⟩⟩ := step_cases h
  · exact List.prefix_rfl
  · exact List.prefix_rfl
  · exact List.prefix_rfl
  · exact List.prefix_rfl
  · exact exec_out_prefix hexec

/-- Settles O41: each step of the run keeps what was emitted, by `step_out_prefix`. -/
theorem outputOnlyGrows : Obligations.OutputOnlyGrows :=
  hostRun_induct (fun s t => s.out <+: t.out) (fun _ => List.prefix_rfl)
    fun _ _ _ hstep hrest => (step_out_prefix hstep).trans hrest

end Sys2Proof.Machine

/-! ### 60_exceptions.md R112 to R114: which fault a step raises, and what it leaves -/

namespace Sys2Proof.Machine

/-- The combo opcodes are legal opcodes (30_encoding.md R62, R63). -/
theorem le_seven_of_comboOpcode {op : Cell} (h : comboOpcode op) : op.toNat ≤ 7 := by
  obtain rfl | rfl | rfl | rfl | rfl := h <;> decide

/-- An instruction is illegal exactly when its cells are a combo opcode and an operand of 7 or above
(30_encoding.md R66, R67). -/
theorem comboLegal_eq_false_iff {i : Instr} :
    i.comboLegal = false ↔ comboOpcode i.opcode ∧ 7 ≤ i.operand.toNat := by
  refine ⟨comboOpcode_of_not_comboLegal, fun ⟨hop, hv⟩ => ?_⟩
  cases i with
  | adv v | bst v | out v | bdv v | cdv v => exact decide_eq_false (Nat.not_le_of_gt hv)
  | bxl v | jnz v | bxc v => simp [Instr.opcode, comboOpcode] at hop

/-- An illegal instruction raises DecodeOperand (60_exceptions.md R112). -/
theorem exec_of_not_comboLegal {i : Instr} (s : State) (h : i.comboLegal = false) :
    exec i s = .next (latch .decodeOperand s) := by
  obtain ⟨-, e⟩ | ⟨hlegal, -⟩ := exec_cases i s
  · exact e
  · cases h.symm.trans hlegal

/-- A combo opcode with an operand of 7 or above decodes, and its execution raises DecodeOperand
(30_encoding.md R66, R70). -/
theorem step_illegal_operand {s : State} {op v : Cell} (h : s.Ready) (hat : s.AtPair op v)
    (hop : comboOpcode op) (hv : 7 ≤ v.toNat) : step s = .next (latch .decodeOperand s) := by
  obtain ⟨i, hd, rfl, rfl, -⟩ | ⟨-, hillegal⟩ := decode_cases op v
  · rw [step_instr h hat hd]
    exact exec_of_not_comboLegal s (comboLegal_eq_false_iff.2 ⟨hop, hv⟩)
  · exact absurd (le_seven_of_comboOpcode hop) (Nat.not_le_of_gt hillegal)

/-- Settles O7: each clause is one branch of R80. -/
theorem stepPriority : Obligations.StepPriority := fun _ hrun =>
  ⟨fun _ => step_of_latched hrun,
    fun hf => step_past_end ⟨hrun, hf⟩,
    fun hf => step_missing_operand ⟨hrun, hf⟩,
    fun _ _ hf => step_illegal_opcode ⟨hrun, hf⟩,
    fun _ _ hf => step_illegal_operand ⟨hrun, hf⟩⟩

/-- Settles O27: an illegal instruction latches DecodeOperand, and one that runs keeps the latch. -/
theorem faultsByInstruction : Obligations.FaultsByInstruction := by
  intro i s hf
  obtain ⟨hillegal, e⟩ | ⟨hlegal, t, e, ran⟩ := exec_cases i s
  · exact ⟨_, e, by simp [hillegal]⟩
  · exact ⟨t, e, by simp [hlegal, ran.flt, hf]⟩

/-- A step that leaves a fault latched, raised or repeated, reports it (40_step_and_run.md R83,
60_exceptions.md R113). -/
theorem step_report_of_flt {s t : State} {cause : FaultCause} (h : step s = .next t) (ht : t.flt = some cause) :
    t.report = some (.fault cause) := by
  obtain ⟨-, ⟨c, hf, rfl⟩ | ⟨hf, -, rfl⟩ | ⟨-, -, rfl⟩ | ⟨-, op, v, -, -, rfl⟩ |
    ⟨hf, op, v, i, -, -, hexec⟩⟩ := step_cases h
  · cases hf.symm.trans ht
    rfl
  · cases hf.symm.trans ht
  · cases ht
    rfl
  · cases ht
    rfl
  · obtain ⟨-, e⟩ | ⟨-, u, e, ran⟩ := exec_cases i s <;> cases e.symm.trans hexec
    · cases ht
      rfl
    · exact ((ran.reportTrue hf).fault cause).2 ht

/-- Settles O28: the fault left in the latch is the one reported, and `eq_latch_of_step_fault` gives the state. -/
theorem faultChangesOnlyTheLatch : Obligations.FaultChangesOnlyTheLatch := fun _ _ _ _ h ht =>
  eq_latch_of_step_fault h (step_report_of_flt h ht)

end Sys2Proof.Machine

/-! ### 70_reset_and_hazards.md R134, R138: programs of legal instructions with even jump targets -/

namespace Sys2Proof.Machine

/-- The machine is on the intended path of the program `is`: nothing is latched, and the pointer is where an opcode
of `is` stands or past the end (70_reset_and_hazards.md R134, R138). -/
structure State.OnPath (is : List Instr) (s : State) : Prop where
  ready : s.Ready
  prog : s.prog = assemble is
  even : s.pc.toNat % 2 = 0

/-- What a fetch at an even index of an assembled program reads is one of its instructions, opcode first
(30_encoding.md R60, R73). -/
theorem exists_mem_of_atPair_even {is : List Instr} {s : State} {op v : Cell} (h : s.OnPath is)
    (hat : s.AtPair op v) : ∃ i ∈ is, decode op v = .instr i := by
  have hpc : 2 * (s.pc.toNat / 2) = s.pc.toNat := Nat.mul_div_cancel' (Nat.dvd_of_mod_eq_zero h.even)
  have hn : s.pc.toNat / 2 < is.length := by
    have hlt := AtPair_lt hat
    rw [h.prog, assemble_length] at hlt
    omega
  have hline := readPair_assemble is (s.pc.toNat / 2) hn
  rw [hpc, ← h.prog, Memory.readPair_eq_some.2 hat] at hline
  exact ⟨_, List.getElem_mem hn, decode_eq_instr_iff.2 (Option.some.inj hline).symm⟩

theorem comboLegal_of_wellFormed {k : Nat} {i : Instr} (h : i.wellFormed k = true) : i.comboLegal = true := by
  rw [Instr.wellFormed, Bool.and_eq_true] at h
  exact h.2

/-- A step on the path of an intended program halts past the end or runs an instruction of the program: the length
is even, so no opcode is without its operand, and every pair decodes to a legal instruction. -/
theorem step_onPath_cases {k : Nat} {is : List Instr} {s t : State} (hintended : IntendedProgram k is)
    (hpath : s.OnPath is) (h : step s = .next t) : t = setReport .halted s ∨ ∃ i ∈ is, Ran i s t := by
  obtain ⟨-, ⟨cause, hf, -⟩ | ⟨-, -, rfl⟩ | ⟨-, hlast, -⟩ | ⟨-, op, v, hat, hop, -⟩ |
    ⟨-, op, v, i, hat, hd, hexec⟩⟩ := step_cases h
  · cases hpath.ready.2.symm.trans hf
  · exact .inl rfl
  · have heven := hpath.even
    rw [hpath.prog, assemble_length] at hlast
    omega
  · obtain ⟨i, -, hd⟩ := exists_mem_of_atPair_even hpath hat
    cases hd.symm.trans (decode_eq_invalid_iff.2 ⟨rfl, hop⟩)
  · obtain ⟨j, hj, hdj⟩ := exists_mem_of_atPair_even hpath hat
    cases hdj.symm.trans hd
    obtain ⟨hillegal, -⟩ | ⟨-, u, e, ran⟩ := exec_cases i s
    · cases hillegal.symm.trans (comboLegal_of_wellFormed (hintended.1 i hj))
    · cases e.symm.trans hexec
      exact .inr ⟨i, hj, ran⟩

/-- An instruction whose jump target is even leaves an even pointer even, and this does not need the bound on L
(70_reset_and_hazards.md R134). -/
theorem Ran.pc_even {i : Instr} {s t : State} (ran : Ran i s t) (heven : s.pc.toNat % 2 = 0)
    (htarget : ∀ v, i = .jnz v → v.toNat % 2 = 0) : t.pc.toNat % 2 = 0 := by
  obtain hpc | ⟨v, hv, -, hpc⟩ := ran.pc <;> rw [hpc]
  · bv_omega
  · exact htarget v hv

theorem State.OnPath.ran {is : List Instr} {i : Instr} {s t : State} (hpath : s.OnPath is) (ran : Ran i s t)
    (htarget : ∀ v, i = .jnz v → v.toNat % 2 = 0) : t.OnPath is where
  ready := by
    obtain ⟨⟨hloaded, hreset⟩, hf⟩ := hpath.ready
    exact ⟨⟨ran.loaded.trans hloaded, ran.resetDone.trans hreset⟩, ran.flt.trans hf⟩
  prog := ran.prog.trans hpath.prog
  even := ran.pc_even hpath.even htarget

theorem State.OnPath.setReport {is : List Instr} {s : State} (hpath : s.OnPath is) (r : Report) :
    (setReport r s).OnPath is :=
  ⟨hpath.ready, hpath.prog, hpath.even⟩

/-- A step of an intended program stays on its path. -/
theorem State.OnPath.step {k : Nat} {is : List Instr} {s t : State} (hintended : IntendedProgram k is)
    (hpath : s.OnPath is) (h : step s = .next t) : t.OnPath is := by
  obtain rfl | ⟨i, hi, ran⟩ := step_onPath_cases hintended hpath h
  · exact hpath.setReport .halted
  · refine hpath.ran ran ?_
    rintro v rfl
    exact hintended.2 v hi

/-- Settles O48: the premises are `State.OnPath`, which every step keeps. -/
theorem intendedProgramKeptByStep : Obligations.IntendedProgramKeptByStep := by
  intro k is s t hintended hready hprog heven h
  obtain ⟨hready', hprog', heven'⟩ := State.OnPath.step hintended ⟨hready, hprog, heven⟩ h
  exact ⟨hready', hprog', heven'⟩

/-- A run whose first step reports Halted is done (40_step_and_run.md R86). -/
theorem hostRun_of_halted {s t : State} (fuel : Nat) (h : step s = .next t) (ht : t.report = some .halted) :
    hostRun (fuel + 1) s = (.done t.out, t) := by
  simp [hostRun_succ h, ht]

/-- A run whose first step runs an instruction goes on from there. -/
theorem hostRun_of_ran {i : Instr} {s t : State} (fuel : Nat) (h : step s = .next t) (ran : Ran i s t) :
    hostRun (fuel + 1) s = hostRun fuel t := by
  obtain ⟨hr, -⟩ | ⟨w, hr, -⟩ := ran.report <;> simp [hostRun_succ h, hr]

/-- A run of an intended program ends in Done or reaches its bound, and stays on the path. -/
theorem hostRun_onPath {k : Nat} {is : List Instr} {s : State} (fuel : Nat) (hintended : IntendedProgram k is)
    (hpath : s.OnPath is) :
    ((hostRun fuel s).1 = .outOfFuel ∨ ∃ o, (hostRun fuel s).1 = .done o) ∧ (hostRun fuel s).2.OnPath is := by
  induction fuel generalizing s with
  | zero => exact ⟨.inl rfl, hpath⟩
  | succ fuel ih =>
    obtain ⟨t, h⟩ := step_next hpath.ready.1
    have hpath' : t.OnPath is := hpath.step hintended h
    obtain rfl | ⟨i, -, ran⟩ := step_onPath_cases hintended hpath h
    · rw [hostRun_of_halted fuel h rfl]
      exact ⟨.inr ⟨_, rfl⟩, hpath'⟩
    · rw [hostRun_of_ran fuel h ran]
      exact ih hpath'

/-- Settles O47, by `hostRun_onPath`. -/
theorem intendedProgramNeverAborts : Obligations.IntendedProgramNeverAborts := by
  intro k is s fuel hintended hready hprog heven
  obtain ⟨hresult, hpath⟩ := hostRun_onPath fuel hintended ⟨hready, hprog, heven⟩
  exact ⟨hresult, hpath.even, hpath.ready.2⟩

/-! ### 70_reset_and_hazards.md R136: a second run -/

/-- Where a step has reported Halted, the next reports it again and changes nothing at all
(40_step_and_run.md R82). -/
theorem step_self_of_step_halted {s t : State} (h : step s = .next t) (ht : t.report = some .halted) :
    step t = .next t := by
  obtain ⟨hf, hle⟩ := past_end_of_step_halted h ht
  cases eq_setReport_of_step_halted h ht
  exact step_past_end (s := setReport .halted s) ⟨(step_cases h).1, hf⟩ hle

/-- Settles O45: the last step of the first run reported Halted, and so does the first of the second. -/
theorem rerunAfterDone : Obligations.RerunAfterDone := by
  intro n m s t o h
  obtain ⟨-, u, -, -, hlast⟩ := hostRun_last_step (fuel := n) (s := s) (by simp [h])
  obtain ⟨hstep, ht, rfl⟩ := step_of_hostRun_one_done (hlast.trans h)
  exact hostRun_of_halted m (step_self_of_step_halted hstep ht) ht

/-! ### 70_reset_and_hazards.md R130 to R133: load, reset and the life cycle -/

/-- A load of at most 2^64 - 2 cells of a legal width sets PROG and asks for a reset, and that is all it does
(70_reset_and_hazards.md R131). -/
theorem hostLoad_of_legal {k : Nat} {cells : List (BitVec k)} (s : State) (hk : Config.legalCellBits k)
    (hlen : cells.length ≤ Config.maxProgLength) :
    hostLoad k cells s =
      .next { s with prog := cells.map (BitVec.setWidth 64), loaded := true, resetDone := false } :=
  (if_pos hk).trans (if_pos hlen)

/-- A program above the bound on L is refused (00_scope.md R8). -/
theorem hostLoad_of_too_long {k : Nat} {cells : List (BitVec k)} (s : State) (hk : Config.legalCellBits k)
    (hlong : Config.maxProgLength < cells.length) : hostLoad k cells s = .refused .programTooLong :=
  (if_pos hk).trans (if_neg (Nat.not_le_of_gt hlong))

/-- There is no machine with cells of another width (00_scope.md R6). -/
theorem hostLoad_of_illegal_width {k : Nat} (cells : List (BitVec k)) (s : State)
    (hk : ¬ Config.legalCellBits k) : hostLoad k cells s = .refused .cellBitsIllegal :=
  if_neg hk

/-- A loaded cell is read at its index with the value that was given: no legal width loses a bit
(notes/assumptions/7.md). -/
theorem read_map_setWidth {k : Nat} (hk : k ≤ 64) (cells : List (BitVec k)) {i : Nat} (h : i < cells.length) :
    ∃ v, Memory.read (cells.map (BitVec.setWidth 64)) i = some v ∧ v.toNat = cells[i].toNat :=
  ⟨BitVec.setWidth 64 cells[i], by simp [h], BitVec.toNat_setWidth_of_le hk⟩

/-- Settles O38: one equation of the load for each clause. -/
theorem loadEffect : Obligations.LoadEffect := by
  intro k cells s
  refine ⟨fun hk hlen => ?fits, hostLoad_of_too_long s, hostLoad_of_illegal_width cells s⟩
  case fits =>
    exact ⟨_, hostLoad_of_legal s hk hlen, List.length_map _, fun _ => read_map_setWidth hk.2 cells, rfl, rfl⟩

/-- A load that succeeds leaves memory in its form and a machine that waits for the reset
(70_reset_and_hazards.md R131). -/
theorem hostLoad_next {k : Nat} {cells : List (BitVec k)} {s t : State} (h : hostLoad k cells s = .next t) :
    Memory.wf k t.prog = true ∧ t.loaded = true ∧ t.resetDone = false := by
  obtain ⟨-, hlen, e⟩ | ⟨-, -, e⟩ | ⟨-, e⟩ := hostLoad_cases k cells s <;> cases e.symm.trans h
  exact ⟨Memory.wf_load cells hlen, rfl, rfl⟩

/-- A reset over well-formed memory establishes the invariant, whatever the state before: it clears the latch and
the report and puts the pointer to 0 (70_reset_and_hazards.md R130). -/
theorem Inv_hostReset {k : Nat} {s : State} (a b c : Word) (hwf : Memory.wf k s.prog = true) :
    (hostReset a b c s).Inv k where
  memory := hwf
  pointer := .inl (Nat.zero_le _)
  diagnosed := faultDiagnosed_of_flt_none rfl
  reported := ⟨fun _ => ⟨nofun, nofun⟩, nofun, nofun⟩

/-- Settles O36: the load gives the memory its form, the reset the rest. -/
theorem loadThenResetEstablishesInvariant : Obligations.LoadThenResetEstablishesInvariant := by
  intro k cells s t a b c h
  obtain ⟨hwf, hloaded, -⟩ := hostLoad_next h
  exact ⟨Inv_hostReset a b c hwf, ⟨hloaded, rfl⟩, rfl⟩

/-- Before the first load a step has no meaning (70_reset_and_hazards.md R132, U5). -/
theorem step_of_not_loaded {s : State} (h : s.loaded = false) : step s = .refused .stepBeforeLoad := by
  simp [step, cycle, h]

/-- After a load and before the reset a step has no meaning (70_reset_and_hazards.md R131, U6). -/
theorem step_of_not_resetDone {s : State} (hloaded : s.loaded = true) (hreset : s.resetDone = false) :
    step s = .refused .stepBeforeReset := by
  simp [step, cycle, hloaded, hreset]

/-- Settles O10: power-on clears the first bit of the life cycle, a load sets it and clears the second. -/
theorem stepNeedsLoadAndReset : Obligations.StepNeedsLoadAndReset := by
  refine ⟨fun _ => step_of_not_loaded, fun _ => step_of_not_resetDone, fun _ => step_of_not_loaded rfl,
    fun k cells s t h => ?_⟩
  obtain ⟨-, hloaded, hreset⟩ := hostLoad_next h
  exact step_of_not_resetDone hloaded hreset

/-- What the host reads after a reset: the values it gave, pc 0 and no fault (10_state.md R35, R36). -/
theorem hostRead_hostReset (a b c : Word) (s : State) : hostRead (hostReset a b c s) = ⟨a, b, c, 0, 0⟩ := rfl

/-- Settles O37: the host's view by `hostRead_hostReset`, OUT and PROG by the laws of the reset. -/
theorem resetEffect : Obligations.ResetEffect :=
  ⟨fun a b c s => ⟨hostRead_hostReset a b c s, hostReset_out a b c s, hostReset_prog a b c s⟩, rfl, rfl, rfl⟩

/-- Of the state before it a reset keeps the program and the load history, and nothing else
(70_reset_and_hazards.md R130, R136). -/
theorem hostReset_congr {s₁ s₂ : State} (a b c : Word) (hprog : s₁.prog = s₂.prog)
    (hloaded : s₁.loaded = s₂.loaded) : hostReset a b c s₁ = hostReset a b c s₂ := by
  simp [hostReset, hprog, hloaded]

/-- Settles O40: the two runs begin in one state, by `hostReset_congr`. -/
theorem resetErasesHistory : Obligations.ResetErasesHistory := fun _ _ a b c fuel hprog hloaded =>
  congrArg (hostRun fuel) (hostReset_congr a b c hprog hloaded)

end Sys2Proof.Machine
